-- ==== Sys2Proof/Word.lean ====
section
/-! DEFINITION. The value types of R10: bits, bytes, 16-bit words, and the finite sequences of them that the ports hold. -/

namespace Sys2Proof

/-- A 16-bit register value or command word (R27, R70). -/
abbrev Word := BitVec 16

/-- A byte, an integer 0..255 (R10). -/
abbrev Byte := BitVec 8

/-- A bit sequence: a finite list of bits, true is 1 (R10). -/
abbrev Bits := List Bool

/-- A byte string: a finite list of bytes (R10). -/
abbrev Bytes := List Byte

/-- Exactly 7 bytes: one encoded address, or the decoded form of one (R30, R32, R170, R172). -/
abbrev Addr := Vector Byte 7

/-- Seven zero bytes, the cleared value of every 7-byte port (R30, R32). -/
def Addr.zero : Addr := Vector.replicate 7 0

end Sys2Proof
end

