-- ==== Sys2Proof/Config.lean ====
section
/-! DEFINITION. The implementation parameters of R8: the constants the source fixes, and the four capacities that are OPEN,
as a record of plain numbers which State carries, so that every statement about all states is one about all capacities. -/

namespace Sys2Proof

/-- `FLAG` (R8). -/
def flagByte : Byte := 0x7E

/-- `STUFF_RUN`: ones after which a 0 is inserted or skipped (R8). -/
def stuffRun : Nat := 5

/-- `CRC_POLY`: the reversed feedback constant (R8). -/
def crcPoly : Word := 0x8408

/-- `CRC_SEED` (R8). -/
def crcSeed : Word := 0xFFFF

/-- `CS_LEN`: callsign base characters after padding (R8). -/
def csLen : Nat := 6

/-- `ADDR_BYTES`: bytes of one encoded address; the length in the type `Addr` (R8). -/
def addrBytes : Nat := 7

/-- `MAX_DIGIS`: largest digipeater count; the length of the digipeater vectors of State (R8). -/
def maxDigis : Nat := 8

/-- `UI_CONTROL`: UI frame control byte and first marker byte (R8). -/
def uiControl : Byte := 0x03

/-- `UI_PID`: UI frame protocol ID and second marker byte (R8). -/
def uiPid : Byte := 0xF0

/-- `DEFAULT_SSID`: the ASCII code of '0' (R8). -/
def defaultSsid : Byte := 0x30

/-- ASCII space, the padding of a callsign (R14). PRESUMED: the spec takes the code from general knowledge (log 12). -/
def asciiSpace : Byte := 0x20

/-- ASCII '-', the SSID separator (R14). PRESUMED: as `asciiSpace` (log 12). -/
def asciiDash : Byte := 0x2D

/-- The OPEN capacities of R8: "a named parameter the model takes as an argument, with the bound the spec requires of it". -/
structure Params where
  /-- `IBITS_MAX`, capacity of the input bit port, in bits. -/
  ibitsMax : Nat
  /-- `OBITS_MAX`, capacity of the output bit port, in bits. -/
  obitsMax : Nat
  /-- `TXT_MAX`, capacity of each callsign text field, in bytes. -/
  txtMax : Nat
  /-- `MAX_INFO_BYTES`, capacity of the info field of FD and of RX, in bytes. -/
  maxInfoBytes : Nat
  deriving DecidableEq, Repr

/-- `WIRE_MAX`, the longest wire sequence HDR.SER can emit (R8): 16 + N + floor(N / 5) with N = 8 × (74 + MAX_INFO_BYTES). -/
def Params.wireMax (p : Params) : Nat :=
  16 + 8 * (74 + p.maxInfoBytes) + 8 * (74 + p.maxInfoBytes) / 5

/-- The bounds R8 requires: IBITS_MAX ≥ 16, OBITS_MAX ≥ WIRE_MAX, TXT_MAX ≥ 8 (MAX_INFO_BYTES ≥ 0 holds of every Nat). -/
abbrev Params.ok (p : Params) : Prop :=
  16 ≤ p.ibitsMax ∧ p.wireMax ≤ p.obitsMax ∧ 8 ≤ p.txtMax

/-- The capacities that `State.reset` carries. DESIGN CHOICE (log 1): the spec leaves them open above their bounds. They are
large enough that no result of the core overflows `OBITS`; no statement rests on their values. -/
def Params.chosen : Params where
  ibitsMax := 65536
  obitsMax := 131072
  txtMax := 255
  maxInfoBytes := 4096

end Sys2Proof
end

