-- ==== Sys2Proof/Syntax.lean ====
section
/-! DEFINITION. The commands of the core, one constructor per row of spec/opcode_table.json (R73), and the
pseudo-instructions of R79. -/

namespace Sys2Proof

/-- A command with its operand (R71, R72). Formats: N no operand, B one bit, Y one byte, A a 7-bit character as a byte. -/
inductive Instr where
  /-- RST, OPC 0x01, format N (R270). -/
  | rst
  /-- NOP, OPC 0x02, format N (R271). -/
  | nop
  /-- STF.CLR, OPC 0x10, format N (R101). -/
  | stfClr
  /-- STF.BIT b, OPC 0x11, format B (R102). -/
  | stfBit (b : Bool)
  /-- STF.SEQ, OPC 0x12, format N (R103). -/
  | stfSeq
  /-- UNS.CLR, OPC 0x20, format N (R121). -/
  | unsClr
  /-- UNS.BIT b, OPC 0x21, format B (R122). -/
  | unsBit (b : Bool)
  /-- UNS.SEQ, OPC 0x22, format N (R123). -/
  | unsSeq
  /-- FCS.INIT, OPC 0x30, format N (R144). -/
  | fcsInit
  /-- FCS.BIT b, OPC 0x31, format B (R145). -/
  | fcsBit (b : Bool)
  /-- FCS.BYTE v, OPC 0x32, format Y (R146). -/
  | fcsByte (v : Byte)
  /-- FCS.APP, OPC 0x33, format N (R148). -/
  | fcsApp
  /-- FCS.VAL, OPC 0x34, format N (R149). -/
  | fcsVal
  /-- CS.ENC c, OPC 0x40, format A: c = zext_8(ARG[6:0]) (R72, R173). -/
  | csEnc (c : Byte)
  /-- CS.DEC, OPC 0x41, format N (R174). -/
  | csDec
  /-- HDR.HDR, OPC 0x50, format N (R206). -/
  | hdrHdr
  /-- HDR.FCSF, OPC 0x51, format N (R207). -/
  | hdrFcsf
  /-- HDR.SER, OPC 0x52, format N (R208). -/
  | hdrSer
  /-- HDR.DES, OPC 0x60, format N (R240). -/
  | hdrDes
  deriving DecidableEq, Repr

/-- The four command formats of R71. -/
inductive Format where
  /-- No operand; ARG[7:0] must be 0. -/
  | n
  /-- A bit in ARG[0]; ARG[7:1] must be 0. -/
  | b
  /-- A byte in ARG[7:0]. -/
  | y
  /-- A 7-bit character in ARG[6:0]; ARG[7] must be 0. -/
  | a
  deriving DecidableEq, Repr

/-- The pseudo-instructions of R79, which stand for sequences of commands. -/
inductive Pseudo where
  /-- STF.BITS b1 ... bk. -/
  | stfBits (bs : List Bool)
  /-- UNS.BITS b1 ... bk. -/
  | unsBits (bs : List Bool)
  /-- FCS.BITS b1 ... bk. -/
  | fcsBits (bs : List Bool)
  /-- FCS.BYTES v1, ..., vk. -/
  | fcsBytes (vs : List Byte)
  /-- CS.ENC with no operand. -/
  | csEncDefault
  deriving DecidableEq, Repr

end Sys2Proof
end

