-- ==== Sys2Proof/WellFormed.lean ====
section
/-! DEFINITION. The one check a command term needs: a format A operand is a 7-bit code (R71, R72). Every other operand is
exactly as wide as its field. -/

namespace Sys2Proof

/-- Format A's operand is "a byte in 0x00..0x7F" (R72). -/
def Instr.wellFormed : Instr → Bool
  | .csEnc c => decide (c.toNat < 128)
  | .rst | .nop | .stfClr | .stfBit _ | .stfSeq | .unsClr | .unsBit _ | .unsSeq | .fcsInit | .fcsBit _ | .fcsByte _
  | .fcsApp | .fcsVal | .csDec | .hdrHdr | .hdrFcsf | .hdrSer | .hdrDes => true

end Sys2Proof
end

