-- ==== Sys2Proof/Decode.lean ====
section
/-! DEFINITION. Command words to commands and back (R70 to R76), and the expansion of the pseudo-instructions (R79). -/

namespace Sys2Proof

/-- Why a command word is illegal (R74). The core itself reports only ILLEGAL_COMMAND (R272). -/
inductive DecodeError where
  /-- OPC is in no row of R73. -/
  | reservedOpcode (opc : Byte)
  /-- OPC is in R73, and an ARG bit its format requires to be 0 is 1. -/
  | reservedArgument (opc : Byte) (arg : Byte)
  deriving DecidableEq, Repr

/-- OPC, bits [15:8] (R70). -/
def opcOf (cw : Word) : Byte := cw.extractLsb' 8 8

/-- ARG, bits [7:0] (R70). -/
def argOf (cw : Word) : Byte := cw.extractLsb' 0 8

/-- Format N: no operand, ARG = 0 (R71). -/
def decodeN (i : Instr) (opc arg : Byte) : Except DecodeError Instr :=
  if arg = 0 then .ok i else .error (.reservedArgument opc arg)

/-- Format B: the operand is ARG[0], and ARG[7:1] = 0 (R71, R72). -/
def decodeB (f : Bool → Instr) (opc arg : Byte) : Except DecodeError Instr :=
  if arg >>> 1 = 0 then .ok (f (arg.getLsbD 0)) else .error (.reservedArgument opc arg)

/-- Format A: the operand is zext_8(ARG[6:0]), and ARG[7] = 0 (R71, R72). -/
def decodeA (f : Byte → Instr) (opc arg : Byte) : Except DecodeError Instr :=
  if arg.getLsbD 7 then .error (.reservedArgument opc arg) else .ok (f ((arg.extractLsb' 0 7).setWidth 8))

/-- `Decode` of R76, total on every 16-bit word. -/
def decode (cw : Word) : Except DecodeError Instr :=
  let opc := opcOf cw
  let arg := argOf cw
  match opc.toNat with
  | 0x01 => decodeN .rst opc arg
  | 0x02 => decodeN .nop opc arg
  | 0x10 => decodeN .stfClr opc arg
  | 0x11 => decodeB .stfBit opc arg
  | 0x12 => decodeN .stfSeq opc arg
  | 0x20 => decodeN .unsClr opc arg
  | 0x21 => decodeB .unsBit opc arg
  | 0x22 => decodeN .unsSeq opc arg
  | 0x30 => decodeN .fcsInit opc arg
  | 0x31 => decodeB .fcsBit opc arg
  | 0x32 => .ok (.fcsByte arg)
  | 0x33 => decodeN .fcsApp opc arg
  | 0x34 => decodeN .fcsVal opc arg
  | 0x40 => decodeA .csEnc opc arg
  | 0x41 => decodeN .csDec opc arg
  | 0x50 => decodeN .hdrHdr opc arg
  | 0x51 => decodeN .hdrFcsf opc arg
  | 0x52 => decodeN .hdrSer opc arg
  | 0x60 => decodeN .hdrDes opc arg
  | _ => .error (.reservedOpcode opc)

/-- What the decoder reads from a command numbered as spec/opcode_table.json numbers it. There is exactly one command length,
16 bits (R70), so a number that does not fit 16 bits is no command word (log 14). -/
def decodeTableWord (nbits w : Nat) : Option Instr :=
  let v := w % 2 ^ nbits
  if v < 2 ^ 16 then (decode (BitVec.ofNat 16 v)).toOption else none

/-- OPC of a command, from the opcode map (R73). -/
def Instr.opcode : Instr → Byte
  | .rst => 0x01
  | .nop => 0x02
  | .stfClr => 0x10
  | .stfBit _ => 0x11
  | .stfSeq => 0x12
  | .unsClr => 0x20
  | .unsBit _ => 0x21
  | .unsSeq => 0x22
  | .fcsInit => 0x30
  | .fcsBit _ => 0x31
  | .fcsByte _ => 0x32
  | .fcsApp => 0x33
  | .fcsVal => 0x34
  | .csEnc _ => 0x40
  | .csDec => 0x41
  | .hdrHdr => 0x50
  | .hdrFcsf => 0x51
  | .hdrSer => 0x52
  | .hdrDes => 0x60

/-- The format of a command, from the opcode map (R73). -/
def Instr.format : Instr → Format
  | .stfBit _ | .unsBit _ | .fcsBit _ => .b
  | .fcsByte _ => .y
  | .csEnc _ => .a
  | .rst | .nop | .stfClr | .stfSeq | .unsClr | .unsSeq | .fcsInit | .fcsApp | .fcsVal | .csDec | .hdrHdr | .hdrFcsf
  | .hdrSer | .hdrDes => .n

/-- ARG of a command (R71). -/
def Instr.argument : Instr → Byte
  | .stfBit b | .unsBit b | .fcsBit b => (BitVec.ofBool b).setWidth 8
  | .fcsByte v => v
  | .csEnc c => c
  | .rst | .nop | .stfClr | .stfSeq | .unsClr | .unsSeq | .fcsInit | .fcsApp | .fcsVal | .csDec | .hdrHdr | .hdrFcsf
  | .hdrSer | .hdrDes => 0

/-- The command word `(OPC << 8) | ARG` (R78). -/
def encode (i : Instr) : Word := i.opcode ++ i.argument

/-- The commands a pseudo-instruction expands to, in order (R79). -/
def Pseudo.expand : Pseudo → List Instr
  | .stfBits bs => bs.map .stfBit
  | .unsBits bs => bs.map .unsBit
  | .fcsBits bs => bs.map .fcsBit
  | .fcsBytes vs => vs.map .fcsByte
  | .csEncDefault => [.csEnc defaultSsid]

end Sys2Proof
end

