-- ==== Sys2Proof/Machine/State.lean ====
section
/-! DEFINITION. The architectural state of R20, the host's accesses that a step consumes, and the state after power-on
reset (R330). -/

namespace Sys2Proof.Machine

open Sys2Proof

/-- The outcome codes of R302, held by STATUS and RX.REASON. Codes 8 to 15 are "reserved and never written", so no value
here stands for one (log 8). `Status.code` in Flags.lean gives the number. -/
inductive Status where
  | ok
  | structuralError
  | frameNotFound
  | headerMarkerNotFound
  | checksumMismatch
  | malformed
  | capacity
  | illegalCommand
  deriving DecidableEq, Repr

/-- The RX.FCS_ST codes (R32, R302): 3 is never written, so no value here stands for it (log 8). -/
inductive FcsSt where
  | notChecked
  | fcsOk
  | fcsMismatch
  deriving DecidableEq, Repr

/-- BRES, the output of the last STF.BIT or UNS.BIT (R25). -/
structure Bres where
  /-- BRES_N, the number of bits emitted. -/
  n : BitVec 2
  /-- BRES_B0, the first emitted bit. -/
  b0 : Bool
  /-- BRES_B1, the second. -/
  b1 : Bool
  deriving DecidableEq, Repr

/-- The frame descriptor FD (R31). -/
structure Fd where
  /-- FD.DEST_TXT. -/
  destTxt : Bytes
  /-- FD.SRC_TXT. -/
  srcTxt : Bytes
  /-- FD.DIGI_TXT[0..7]. -/
  digiTxt : Vector Bytes 8
  /-- FD.NDIGI, 4 bits, 0..15 held. -/
  ndigi : BitVec 4
  /-- FD.CTRL. -/
  ctrl : Byte
  /-- FD.PID. -/
  pid : Byte
  /-- FD.INFO. -/
  info : Bytes
  /-- FD.FCS. -/
  fcs : Word
  deriving DecidableEq, Repr

/-- The receive record RX (R32). -/
structure Rx where
  /-- RX.VALID. -/
  valid : Bool
  /-- RX.REASON. -/
  reason : Status
  /-- RX.FCS_ST. -/
  fcsSt : FcsSt
  /-- RX.DEST. -/
  dest : Addr
  /-- RX.SRC. -/
  src : Addr
  /-- RX.NDIGI, 4 bits. -/
  ndigi : BitVec 4
  /-- RX.DIGI[0..7]. -/
  digi : Vector Addr 8
  /-- RX.CTRL. -/
  ctrl : Byte
  /-- RX.PID. -/
  pid : Byte
  /-- RX.INFO. -/
  info : Bytes
  /-- RX.FCS. -/
  fcs : Word
  deriving DecidableEq, Repr

/-- The names of the port space (R50): the four ports, the FD fields and the RX fields. -/
inductive PortName where
  | ibits | obits | csIn | csOut
  | fdDestTxt | fdSrcTxt | fdDigiTxt (i : Fin 8) | fdNdigi | fdCtrl | fdPid | fdInfo | fdFcs
  | rxValid | rxReason | rxFcsSt | rxDest | rxSrc | rxNdigi | rxDigi (i : Fin 8) | rxCtrl | rxPid | rxInfo | rxFcs
  deriving DecidableEq, Repr

/-- The whole value a host read returns (R51, R52): a 16-bit register or scalar field, a bit sequence, or a byte string. -/
inductive HostVal where
  | word (v : Word)
  | bits (v : Bits)
  | bytes (v : Bytes)
  deriving DecidableEq, Repr

/-- A host write of a whole port value (R52). There is no constructor for a port only the core writes: "the host never writes
OBITS or CS_OUT" (R30), FD.FCS (R31) or RX (R32). -/
inductive PortWrite where
  | ibits (v : Bits)
  | csIn (v : Bytes)
  | fdDestTxt (v : Bytes)
  | fdSrcTxt (v : Bytes)
  | fdDigiTxt (i : Fin 8) (v : Bytes)
  | fdNdigi (v : BitVec 4)
  | fdCtrl (v : Byte)
  | fdPid (v : Byte)
  | fdInfo (v : Bytes)
  deriving DecidableEq, Repr

/-- One action of the host, the only other agent (R17, R50, R330). -/
inductive HostAct where
  /-- The reset input is asserted (R330). -/
  | powerOnReset
  /-- Register number n is written with v; number 0 is CMD and issues the command (R28, R80). -/
  | writeReg (n : Byte) (v : Word)
  /-- Register number n is read (R28). -/
  | readReg (n : Byte)
  /-- A port is written (R52). -/
  | writePort (w : PortWrite)
  /-- A port is read (R52). -/
  | readPort (p : PortName)
  deriving DecidableEq, Repr

/-- The machine: the state of R20, and three fields of the model's own (`cfg`, `host`, `reply`). -/
structure State where
  /-- The model's own: the OPEN capacities of R8, fixed for a machine (log 1). -/
  cfg : Params
  /-- STF_CNT (R21). -/
  stfCnt : BitVec 3
  /-- UNS_CNT (R22). -/
  unsCnt : BitVec 3
  /-- UNS_SKIP (R22). -/
  unsSkip : Bool
  /-- FCS_CRC (R23). -/
  fcsCrc : Word
  /-- BRES_N, BRES_B0, BRES_B1 (R25). -/
  bres : Bres
  /-- STATUS (R26). -/
  status : Status
  /-- IBITS (R30). -/
  ibits : Bits
  /-- OBITS (R30). -/
  obits : Bits
  /-- CS_IN (R30). -/
  csIn : Bytes
  /-- CS_OUT (R30). -/
  csOut : Addr
  /-- FD (R31). -/
  fd : Fd
  /-- RX (R32). -/
  rx : Rx
  /-- The model's own: the host's actions still to come, the next one first (log 2). -/
  host : List HostAct
  /-- The model's own: the value the latest host read returned, if there was one (log 3). -/
  reply : Option HostVal
  deriving DecidableEq, Repr

/-- Why the machine stops. -/
inductive Fault where
  /-- Raised by a host write to a port when the value is longer than the port's capacity: "the model gives the host no such
  move" (R52, I16). Safe: no claim about a state after such a write can be proved. -/
  | portWriteTooLong
  deriving DecidableEq, Repr

/-- Why a command has no meaning. -/
inductive Refusal where
  /-- An instruction whose meaning is not written yet, by its mnemonic. No arm of exec raises it any more. Safe. -/
  | notModelled (mnemonic : String)
  deriving DecidableEq, Repr

/-- The outcome of a command or a step of this machine. -/
abbrev Result := Host.Outcome State Fault Refusal

/-- BRES after reset (R25). -/
def Bres.reset : Bres where
  n := 0
  b0 := false
  b1 := false

/-- FD after power-on reset (R31, R330). -/
def Fd.reset : Fd where
  destTxt := []
  srcTxt := []
  digiTxt := Vector.replicate 8 []
  ndigi := 0
  ctrl := 0x03
  pid := 0xF0
  info := []
  fcs := 0x0000

/-- RX after reset (R32, R330). -/
def Rx.reset : Rx where
  valid := false
  reason := .ok
  fcsSt := .notChecked
  dest := Addr.zero
  src := Addr.zero
  ndigi := 0
  digi := Vector.replicate 8 Addr.zero
  ctrl := 0x00
  pid := 0x00
  info := []
  fcs := 0x0000

/-- The state after power-on reset of a core with the given capacities (R330), with no host action to come and none read. -/
def State.resetWith (p : Params) : State where
  cfg := p
  stfCnt := 0
  unsCnt := 0
  unsSkip := false
  fcsCrc := 0xFFFF
  bres := Bres.reset
  status := .ok
  ibits := []
  obits := []
  csIn := []
  csOut := Addr.zero
  fd := Fd.reset
  rx := Rx.reset
  host := []
  reply := none

/-- The machine right after power-on reset (R330), at the capacities the model chose (log 1). -/
def State.reset : State := State.resetWith Params.chosen

end Sys2Proof.Machine
end

