-- ==== Sys2Proof/Machine/Operands.lean ====
section
/-! DEFINITION. How operands are read as bits, bytes and words: the conversions of R13 and R54 to R57. (How ARG of a command
word becomes an operand, R72, is in Decode.lean.) -/

namespace Sys2Proof.Machine

open Sys2Proof

/-- A byte's bits, least-significant first: the wire order (R13, R54). -/
def lsbBits (v : Byte) : Bits :=
  [v.getLsbD 0, v.getLsbD 1, v.getLsbD 2, v.getLsbD 3, v.getLsbD 4, v.getLsbD 5, v.getLsbD 6, v.getLsbD 7]

/-- A byte's bits, most-significant first: the order in which the FCS engine folds a byte (R55, R141). -/
def msbBits (v : Byte) : Bits :=
  [v.getLsbD 7, v.getLsbD 6, v.getLsbD 5, v.getLsbD 4, v.getLsbD 3, v.getLsbD 2, v.getLsbD 1, v.getLsbD 0]

/-- The sum over i of `s[i] << i` (R13). -/
def natOfBits : Bits → Nat
  | [] => 0
  | b :: s => b.toNat + 2 * natOfBits s

/-- `bits_of` (R13). -/
def bitsOf (B : Bytes) : Bits := B.flatMap lsbBits

/-- `bytes_of` (R13), for a sequence of whole bytes; fewer than 8 bits at the end give no byte (no rule reads them: R233). -/
def bytesOf : Bits → Bytes
  | b0 :: b1 :: b2 :: b3 :: b4 :: b5 :: b6 :: b7 :: s =>
    BitVec.ofNat 8 (natOfBits [b0, b1, b2, b3, b4, b5, b6, b7]) :: bytesOf s
  | _ => []

/-- The low byte `v[7:0]` of a 16-bit value. -/
def lowByte (v : Word) : Byte := v.extractLsb' 0 8

/-- The high byte `v[15:8]` of a 16-bit value. -/
def highByte (v : Word) : Byte := v.extractLsb' 8 8

/-- A 16-bit value as two bytes, low byte first (R56, R142). -/
def wordBytes (v : Word) : Bytes := [lowByte v, highByte v]

/-- The 16-bit value of two bytes, the low one given first: `lo | (hi << 8)` (R234, R237). -/
def wordOfBytes (lo hi : Byte) : Word := hi ++ lo

/-- `bits16` (R13). -/
def bits16 (v : Word) : Bits := bitsOf (wordBytes v)

/-- `val16` (R13). -/
def val16 (s : Bits) : Word := BitVec.ofNat 16 (natOfBits s)

/-- `s[a .. b)` (R10). -/
def slice {α : Type} (s : List α) (a b : Nat) : List α := (s.drop a).take (b - a)

/-- The 7 bytes of a byte string from index k on (R237). -/
def addrAt (B : Bytes) (k : Nat) : Addr := Vector.ofFn fun i => B.getD (k + i.val) 0

/-- The operand of FCS.BYTE, CS.ENC and the bit commands as State sees a register: a value of at most 16 bits, zero-extended
(R72). -/
def zext16 {w : Nat} (v : BitVec w) : Word := v.setWidth 16

end Sys2Proof.Machine
end

