-- ==== Sys2Proof/Machine/Flags.lean ====
section
/-! DEFINITION. The status outputs of the core (R29): the numbers of the codes (R302), the words in which the host reads
STATUS, BRES and RX (R27), and the sentinel of a failed decode (R239). -/

namespace Sys2Proof.Machine

open Sys2Proof

/-- The 4-bit code of an outcome (R302). -/
def Status.code : Status → BitVec 4
  | .ok => 0
  | .structuralError => 1
  | .frameNotFound => 2
  | .headerMarkerNotFound => 3
  | .checksumMismatch => 4
  | .malformed => 5
  | .capacity => 6
  | .illegalCommand => 7

/-- The 2-bit code of RX.FCS_ST (R32, R302). -/
def FcsSt.code : FcsSt → BitVec 2
  | .notChecked => 0
  | .fcsOk => 1
  | .fcsMismatch => 2

/-- BRES after a command that emitted the bits `o`: a field beyond BRES_N reads 0 (R25, R102, R122). -/
def Bres.ofBits (o : Bits) : Bres where
  n := BitVec.ofNat 2 o.length
  b0 := o.getD 0 false
  b1 := o.getD 1 false

/-- Register 0x03, UNS_STATE (R27). -/
def unsStateWord (cnt : BitVec 3) (skip : Bool) : Word :=
  zext16 cnt ||| (zext16 (BitVec.ofBool skip) <<< 3)

/-- Register 0x06, BRES (R27). -/
def Bres.word (b : Bres) : Word :=
  zext16 b.n ||| (zext16 (BitVec.ofBool b.b0) <<< 2) ||| (zext16 (BitVec.ofBool b.b1) <<< 3)

/-- Register 0x0B, RX_STATUS (R27). -/
def Rx.statusWord (r : Rx) : Word :=
  zext16 (BitVec.ofBool r.valid) ||| (zext16 r.reason.code <<< 1) ||| (zext16 r.fcsSt.code <<< 5)
    ||| (zext16 r.ndigi <<< 8)

/-- Register 0x0C, RX_CTRL_PID (R27). -/
def Rx.ctrlPidWord (r : Rx) : Word := zext16 r.ctrl ||| (zext16 r.pid <<< 8)

/-- The "failed to decode" record for code E and integrity result f (R239). -/
def Rx.sentinel (E : Status) (f : FcsSt) : Rx := { Rx.reset with reason := E, fcsSt := f }

end Sys2Proof.Machine
end

