-- ==== Sys2Proof/Machine/Ops.lean ====
section
/-! DEFINITION. The named operations over State that the meanings share: one setter per register and port, completing a
command and raising an error code (R301), and writing a result to OBITS within its capacity (D22, D23). The core has no
addressed memory (R12, R50), and an error is a status code, never a trap (R300): `raise` is the whole of taking an exception,
and there is nothing to return from (R307). -/

namespace Sys2Proof.Machine

open Sys2Proof

/-- Write STATUS. -/
def State.setStatus (s : State) (v : Status) : State := { s with status := v }

/-- Write STF_CNT. -/
def State.setStfCnt (s : State) (v : BitVec 3) : State := { s with stfCnt := v }

/-- Write UNS_CNT and UNS_SKIP. -/
def State.setUns (s : State) (cnt : BitVec 3) (skip : Bool) : State := { s with unsCnt := cnt, unsSkip := skip }

/-- Write FCS_CRC. -/
def State.setFcsCrc (s : State) (v : Word) : State := { s with fcsCrc := v }

/-- Write BRES. -/
def State.setBres (s : State) (v : Bres) : State := { s with bres := v }

/-- `PortWrite(OBITS, v)`. -/
def State.setObits (s : State) (v : Bits) : State := { s with obits := v }

/-- `PortWrite(CS_OUT, v)`. -/
def State.setCsOut (s : State) (v : Addr) : State := { s with csOut := v }

/-- Write FD. -/
def State.setFd (s : State) (v : Fd) : State := { s with fd := v }

/-- Write FD.FCS. -/
def State.setFdFcs (s : State) (v : Word) : State := s.setFd { s.fd with fcs := v }

/-- Write RX. -/
def State.setRx (s : State) (v : Rx) : State := { s with rx := v }

/-- `PortWrite(IBITS, v)`, by the host only. -/
def State.setIbits (s : State) (v : Bits) : State := { s with ibits := v }

/-- `PortWrite(CS_IN, v)`, by the host only. -/
def State.setCsIn (s : State) (v : Bytes) : State := { s with csIn := v }

/-- Replace the host's actions still to come. -/
def State.setHost (s : State) (v : List HostAct) : State := { s with host := v }

/-- Record what a host read returned. -/
def State.setReply (s : State) (v : Option HostVal) : State := { s with reply := v }

/-- "A command that completes without `raise` sets STATUS <- OK" (R301). -/
def complete (s : State) : Result := .next (s.setStatus .ok)

/-- `raise E`, on the state in which the command's failure writes have been made: "set STATUS <- E" (R301). There is no trap:
the machine goes on (R300). -/
def raise (E : Status) (s : State) : Result := .next (s.setStatus E)

/-- A failing command that writes OBITS: `OBITS <- []; raise E` (R304). -/
def raiseObits (E : Status) (s : State) : Result := raise E (s.setObits [])

/-- A failing command that writes CS_OUT: `CS_OUT <- [0x00] * 7; raise E` (R304). -/
def raiseCsOut (E : Status) (s : State) : Result := raise E (s.setCsOut Addr.zero)

/-- `if len(r) > OBITS_MAX: OBITS <- []; raise CAPACITY`, else `OBITS <- r; STATUS <- OK` (R103, R123, R148, R206). -/
def emitObits (r : Bits) (s : State) : Result :=
  if s.cfg.obitsMax < r.length then raiseObits .capacity s else complete (s.setObits r)

/-- The effect of an illegal command word: "STATUS <- ILLEGAL_COMMAND and changes no other state" (R272). -/
def illegalCommand (s : State) : Result := raise .illegalCommand s

/-- The state an outcome goes on with, if it does. -/
def resultState : Result → Option State
  | .next s => some s
  | .fault _ | .refused _ => none

end Sys2Proof.Machine
end

