-- ==== Sys2Proof/Machine/Callsign.lean ====
section
/-! DEFINITION. The callsign-to-address coder (R170 to R174). -/

namespace Sys2Proof.Machine

open Sys2Proof

/-- A byte 'a'..'z' (0x61..0x7A) becomes itself minus 0x20; every other byte stays (R170, D25). -/
def upperByte (b : Byte) : Byte := if 0x61 ≤ b.toNat ∧ b.toNat ≤ 0x7A then b - 0x20 else b

/-- A 7-bit ASCII code (R170, D18). -/
def isAscii (b : Byte) : Bool := decide (b.toNat ≤ 0x7F)

/-- The base and SSID of upper-cased text `U` with default SSID `d`; none when it holds two or more dashes (R170). -/
def splitSsid (U : Bytes) (d : Byte) : Option (Bytes × Bytes) :=
  match U.count asciiDash with
  | 0 => some (U, [d])
  | 1 => some (U.takeWhile (· ≠ asciiDash), (U.dropWhile (· ≠ asciiDash)).drop 1)
  | _ => none

/-- `raw` of R170 from a base and an SSID, with the length checks of R170; none is STRUCTURAL_ERROR. -/
def rawAddress (base ssid : Bytes) : Option Bytes :=
  if ssid.length ≠ 1 then none
  else if csLen < base.length then none
  else if base.length = 0 then none
  else some (base ++ List.replicate (csLen - base.length) asciiSpace ++ ssid)

/-- Every byte shifted left by one bit (R170). -/
def shiftLeft7 (raw : Bytes) : Addr := Vector.ofFn fun i => raw.getD i.val 0 <<< 1

/-- `encode(T, d)` (R170); none is STRUCTURAL_ERROR. -/
def encodeCallsign (T : Bytes) (d : Byte) : Option Addr :=
  if T.all isAscii && isAscii d then
    match splitSsid (T.map upperByte) d with
    | some (base, ssid) => (rawAddress base ssid).map shiftLeft7
    | none => none
  else none

/-- `decode(A)` (R172). -/
def decodeAddr (A : Addr) : Addr := Vector.ofFn fun i => A[i] >>> 1

/-- CS.ENC c (R173). -/
def execCsEnc (c : Byte) (s : State) : Result :=
  match encodeCallsign s.csIn c with
  | none => raiseCsOut .structuralError s
  | some r => complete (s.setCsOut r)

/-- CS.DEC (R174). -/
def execCsDec (s : State) : Result :=
  if s.csIn.length ≠ addrBytes then raiseCsOut .structuralError s
  else complete (s.setCsOut (decodeAddr (addrAt s.csIn 0)))

end Sys2Proof.Machine
end

