-- ==== Sys2Proof/Machine/Control.lean ====
section
/-! DEFINITION. The block control commands (R270, R271). -/

namespace Sys2Proof.Machine

open Sys2Proof

/-- Every piece of state the core itself writes, at its reset value; the host-written inputs are kept (R270, R331). -/
def State.clearCoreState (s : State) : State :=
  (((((((s.setStfCnt 0).setUns 0 false).setFcsCrc crcSeed).setBres Bres.reset).setObits []).setCsOut Addr.zero).setFdFcs 0).setRx
    Rx.reset

/-- RST (R270). -/
def execRst (s : State) : Result := complete s.clearCoreState

/-- NOP (R271). -/
def execNop (s : State) : Result := complete s

end Sys2Proof.Machine
end

