-- ==== Sys2Proof/Machine/Fcs.lean ====
section
/-! DEFINITION. The CRC-16 FCS engine (R140 to R149). -/

namespace Sys2Proof.Machine

open Sys2Proof

/-- `update_bit` (R140). -/
def updateBit (st : Word) (x : Bool) : Word :=
  let sh := st >>> 1
  if st.getLsbD 0 != x then sh ^^^ crcPoly else sh

/-- `update_byte`: most-significant bit first (R141). -/
def updateByte (st : Word) (v : Byte) : Word := (msbBits v).foldl updateBit st

/-- `update` (R141). -/
def update (st : Word) (B : Bytes) : Word := B.foldl updateByte st

/-- `digest` (R142). -/
def digest (st : Word) : Word := ~~~st

/-- `digest_bytes` (R142). -/
def digestBytes (st : Word) : Bytes := wordBytes (digest st)

/-- `digest_bits` (R142). -/
def digestBits (st : Word) : Bits := bits16 (digest st)

/-- `crc_bits` (R143). -/
def crcBits (s : Bits) : Word := s.foldl updateBit crcSeed

/-- `crc_bytes` (R143). -/
def crcBytes (B : Bytes) : Word := update crcSeed B

/-- FCS.INIT (R144). -/
def execFcsInit (s : State) : Result := complete (s.setFcsCrc crcSeed)

/-- FCS.BIT b (R145). -/
def execFcsBit (b : Bool) (s : State) : Result := complete (s.setFcsCrc (updateBit s.fcsCrc b))

/-- FCS.BYTE v (R146). -/
def execFcsByte (v : Byte) (s : State) : Result := complete (s.setFcsCrc (updateByte s.fcsCrc v))

/-- `fcs_append` (R148). -/
def fcsAppend (s : Bits) : Bits := s ++ digestBits (crcBits s)

/-- FCS.APP (R148). -/
def execFcsApp (s : State) : Result := emitObits (fcsAppend s.ibits) s

/-- The bits before the 16-bit trailer, `s[0 .. L-16)` (R149). -/
def fcsBody (s : Bits) : Bits := slice s 0 (s.length - 16)

/-- The trailer `val16(s[L-16 .. L))` (R149). -/
def fcsTrailer (s : Bits) : Word := val16 (slice s (s.length - 16) s.length)

/-- FCS.VAL: length, then checksum, then capacity (R149, D30). -/
def execFcsVal (s : State) : Result :=
  if s.ibits.length < 16 then raiseObits .checksumMismatch s
  else if digest (crcBits (fcsBody s.ibits)) ≠ fcsTrailer s.ibits then raiseObits .checksumMismatch s
  else emitObits (fcsBody s.ibits) s

end Sys2Proof.Machine
end

