-- ==== Sys2Proof/Machine/Stuffer.lean ====
section
/-! DEFINITION. The bit-stuffer (R100 to R103). -/

namespace Sys2Proof.Machine

open Sys2Proof

/-- `stuff_step` (R100): the new count, and the one or two bits emitted. -/
def stuffStep (cnt : Nat) (x : Bool) : Nat × Bits :=
  let c := if x then cnt + 1 else 0
  if c = stuffRun then (0, [x, false]) else (c, [x])

/-- `stuff_from` (R100). -/
def stuffFrom : Nat → Bits → Bits
  | _, [] => []
  | cnt, x :: s => (stuffStep cnt x).2 ++ stuffFrom (stuffStep cnt x).1 s

/-- The count after a sequence, from the count `cnt` before it (R100). -/
def stuffCount : Nat → Bits → Nat
  | cnt, [] => cnt
  | cnt, x :: s => stuffCount (stuffStep cnt x).1 s

/-- `stuff` (R100). -/
def stuff (s : Bits) : Bits := stuffFrom 0 s

/-- STF.CLR (R101). -/
def execStfClr (s : State) : Result := complete (s.setStfCnt 0)

/-- STF.BIT b (R102). -/
def execStfBit (b : Bool) (s : State) : Result :=
  let r := stuffStep s.stfCnt.toNat b
  complete ((s.setStfCnt (BitVec.ofNat 3 r.1)).setBres (Bres.ofBits r.2))

/-- STF.SEQ (R103). -/
def execStfSeq (s : State) : Result := emitObits (stuff s.ibits) s

end Sys2Proof.Machine
end

