-- ==== Sys2Proof/Machine/Serializer.lean ====
section
/-! DEFINITION. The frame header serializer (R200 to R209). -/

namespace Sys2Proof.Machine

open Sys2Proof

/-- `FLAG_BITS` (R205). -/
def flagBits : Bits := bitsOf [flagByte]

/-- The callsign texts the serializer reads, in path order (R200, R201). -/
def Fd.texts (fd : Fd) : List Bytes := [fd.destTxt, fd.srcTxt] ++ fd.digiTxt.toList.take fd.ndigi.toNat

/-- Each text encoded with the default SSID and concatenated, in order; none when one fails (R201). -/
def encodeTexts : List Bytes → Option Bytes
  | [] => some []
  | T :: L =>
    match encodeCallsign T defaultSsid, encodeTexts L with
    | some e, some A => some (e.toList ++ A)
    | _, _ => none

/-- `A[len(A) - 1] <- A[len(A) - 1] | 0x01`, the end-of-address marker (R201). -/
def markEnd : Bytes → Bytes
  | [] => []
  | [b] => [b ||| 0x01]
  | b :: A => b :: markEnd A

/-- `addresses(FD)` (R201); none is STRUCTURAL_ERROR. -/
def Fd.addresses (fd : Fd) : Option Bytes :=
  if maxDigis < fd.ndigi.toNat then none else (encodeTexts fd.texts).map markEnd

/-- `header(FD)` (R202); none is STRUCTURAL_ERROR. -/
def Fd.header (fd : Fd) : Option Bytes := fd.addresses.map (· ++ [fd.ctrl, fd.pid])

/-- `fcs_field` over a header and info (R203). -/
def frameFcs (header info : Bytes) : Word := digest (crcBytes (header ++ info))

/-- `frame_bytes` over a header and info (R204). -/
def frameBytes (header info : Bytes) : Bytes := header ++ info ++ wordBytes (frameFcs header info)

/-- Bytes stuffed between two flags, which are not stuffed (R205). -/
def wire (B : Bytes) : Bits := flagBits ++ stuff (bitsOf B) ++ flagBits

/-- HDR.HDR (R206). -/
def execHdrHdr (s : State) : Result :=
  match s.fd.header with
  | none => raiseObits .structuralError s
  | some h => emitObits (bitsOf h) s

/-- HDR.FCSF (R207): on failure FD.FCS is unchanged. -/
def execHdrFcsf (s : State) : Result :=
  match s.fd.header with
  | none => raise .structuralError s
  | some h => complete (s.setFdFcs (frameFcs h s.fd.info))

/-- HDR.SER (R208): on failure FD.FCS is unchanged. -/
def execHdrSer (s : State) : Result :=
  match s.fd.header with
  | none => raiseObits .structuralError s
  | some h =>
    let r := wire (frameBytes h s.fd.info)
    if s.cfg.obitsMax < r.length then raiseObits .capacity s
    else complete ((s.setObits r).setFdFcs (frameFcs h s.fd.info))

end Sys2Proof.Machine
end

