-- ==== Sys2Proof/Machine/Unstuffer.lean ====
section
/-! DEFINITION. The bit-unstuffer (R120 to R123). -/

namespace Sys2Proof.Machine

open Sys2Proof

/-- What `unstuff_step` returns: the new count and skip flag, and the bits passed (R120). -/
structure UnstuffOut where
  cnt : Nat
  skip : Bool
  out : Bits
  deriving DecidableEq, Repr

/-- `unstuff_step` (R120). -/
def unstuffStep (cnt : Nat) (skip x : Bool) : UnstuffOut :=
  if skip then ⟨cnt, false, []⟩
  else
    let c := if x then cnt + 1 else 0
    if c = stuffRun then ⟨0, true, [x]⟩ else ⟨c, false, [x]⟩

/-- `unstuff_from` (R120). -/
def unstuffFrom : Nat → Bool → Bits → Bits
  | _, _, [] => []
  | cnt, skip, x :: s =>
    (unstuffStep cnt skip x).out ++ unstuffFrom (unstuffStep cnt skip x).cnt (unstuffStep cnt skip x).skip s

/-- `unstuff` (R120). -/
def unstuff (s : Bits) : Bits := unstuffFrom 0 false s

/-- UNS.CLR (R121). -/
def execUnsClr (s : State) : Result := complete (s.setUns 0 false)

/-- UNS.BIT b (R122). -/
def execUnsBit (b : Bool) (s : State) : Result :=
  let r := unstuffStep s.unsCnt.toNat s.unsSkip b
  complete ((s.setUns (BitVec.ofNat 3 r.cnt) r.skip).setBres (Bres.ofBits r.out))

/-- UNS.SEQ (R123). -/
def execUnsSeq (s : State) : Result := emitObits (unstuff s.ibits) s

end Sys2Proof.Machine
end

