-- ==== Sys2Proof/Machine/Deserializer.lean ====
section
/-! DEFINITION. The frame header deserializer (R230 to R241). -/

namespace Sys2Proof.Machine

open Sys2Proof

/-- The least offset of FLAG_BITS in `s`, counted from `i` (R231). -/
def findFlagIn : Bits → Nat → Option Nat
  | [], _ => none
  | x :: s, i => if (x :: s).take 8 = flagBits then some i else findFlagIn s (i + 1)

/-- `find(s, from)` (R231). -/
def findFlag (s : Bits) (start : Nat) : Option Nat := findFlagIn (s.drop start) start

/-- Seek-flag and extract (R231, R232): the unstuffed body between the first two flags. The second flag is searched from the
end of the first (D12). -/
def extractBody (s : Bits) : Except Status Bits :=
  match findFlag s 0 with
  | none => .error .frameNotFound
  | some s1 =>
    match findFlag s (s1 + 8) with
    | none => .error .frameNotFound
    | some s2 => .ok (unstuff (slice s (s1 + 8) s2))

/-- The byte of a body at an index; every index read by the rules is in range. -/
def byteAt (B : Bytes) (k : Nat) : Byte := B.getD k 0

/-- The trailer `B[n-2] | (B[n-1] << 8)` (R234, R237). -/
def bodyTrailer (B : Bytes) : Word := wordOfBytes (byteAt B (B.length - 2)) (byteAt B (B.length - 1))

/-- The integrity check (R234): over the body bytes most-significant bit first (C1). -/
def integrity (B : Bytes) : FcsSt :=
  if B.length < 2 then .notChecked
  else if digest (crcBytes (slice B 0 (B.length - 2))) = bodyTrailer B then .fcsOk
  else .fcsMismatch

/-- The least offset of the marker bytes 0x03 0xF0, counted from `k` (R235). -/
def findMarkerIn : Bytes → Nat → Option Nat
  | a :: b :: B, k => if a = uiControl ∧ b = uiPid then some k else findMarkerIn (b :: B) (k + 1)
  | [_], _ => none
  | [], _ => none

/-- The marker scan from byte offset 14 over the whole body (R235). -/
def findMarker (B : Bytes) : Option Nat := findMarkerIn (B.drop 14) 14

/-- The decoded digipeaters: the first k from the body, the rest zero (R237, R238). -/
def digisOf (B : Bytes) (k : Nat) : Vector Addr 8 :=
  Vector.ofFn fun i => if i.val < k then decodeAddr (addrAt B (14 + 7 * i.val)) else Addr.zero

/-- The record of a successful decode with the marker at offset j and k digipeaters (R237, R238). -/
def Rx.decoded (B : Bytes) (j k : Nat) (f : FcsSt) : Rx where
  valid := true
  reason := .ok
  fcsSt := f
  dest := decodeAddr (addrAt B 0)
  src := decodeAddr (addrAt B 7)
  ndigi := BitVec.ofNat 4 k
  digi := digisOf B k
  ctrl := byteAt B j
  pid := byteAt B (j + 1)
  info := slice B (j + 2) (B.length - 2)
  fcs := bodyTrailer B

/-- Marker scan, split and decode (R235 to R237), in the order of R241. -/
def splitBody (maxInfo : Nat) (B : Bytes) : Except Status Rx :=
  match findMarker B with
  | none => .error .headerMarkerNotFound
  | some j =>
    if B.length < j + 4 then .error .malformed
    else if (j - 14) % 7 ≠ 0 then .error .malformed
    else if maxDigis < (j - 14) / 7 then .error .malformed
    else if maxInfo < (slice B (j + 2) (B.length - 2)).length then .error .capacity
    else .ok (Rx.decoded B j ((j - 14) / 7) (integrity B))

/-- The receive record a decode ends with (R230, R240): RX.FCS_ST is NOT_CHECKED until R234 has run (R239). -/
def parse (maxInfo : Nat) (s : Bits) : Rx :=
  match extractBody s with
  | .error E => Rx.sentinel E .notChecked
  | .ok body =>
    if body.length % 8 ≠ 0 then Rx.sentinel .malformed .notChecked
    else
      match splitBody maxInfo (bytesOf body) with
      | .error E => Rx.sentinel E (integrity (bytesOf body))
      | .ok r => r

/-- HDR.DES (R240): "STATUS is OK on success and the failure code otherwise", which is RX.REASON in both cases (R238, R239). -/
def execHdrDes (s : State) : Result :=
  let r := parse s.cfg.maxInfoBytes s.ibits
  if r.valid then complete (s.setRx r) else raise r.reason (s.setRx r)

end Sys2Proof.Machine
end

