-- ==== Sys2Proof/Machine/Dispatch.lean ====
section
/-! DEFINITION. One arm per command (R73). -/

namespace Sys2Proof.Machine

open Sys2Proof

def exec (i : Instr) (s : State) : Host.Outcome State Fault Refusal :=
  match i with
  | .rst => Sys2Proof.Machine.execRst s
  | .nop => Sys2Proof.Machine.execNop s
  | .stfClr => Sys2Proof.Machine.execStfClr s
  | .stfBit b => Sys2Proof.Machine.execStfBit b s
  | .stfSeq => Sys2Proof.Machine.execStfSeq s
  | .unsClr => Sys2Proof.Machine.execUnsClr s
  | .unsBit b => Sys2Proof.Machine.execUnsBit b s
  | .unsSeq => Sys2Proof.Machine.execUnsSeq s
  | .fcsInit => Sys2Proof.Machine.execFcsInit s
  | .fcsBit b => Sys2Proof.Machine.execFcsBit b s
  | .fcsByte v => Sys2Proof.Machine.execFcsByte v s
  | .fcsApp => Sys2Proof.Machine.execFcsApp s
  | .fcsVal => Sys2Proof.Machine.execFcsVal s
  | .csEnc c => Sys2Proof.Machine.execCsEnc c s
  | .csDec => Sys2Proof.Machine.execCsDec s
  | .hdrHdr => Sys2Proof.Machine.execHdrHdr s
  | .hdrFcsf => Sys2Proof.Machine.execHdrFcsf s
  | .hdrSer => Sys2Proof.Machine.execHdrSer s
  | .hdrDes => Sys2Proof.Machine.execHdrDes s

end Sys2Proof.Machine
end

