-- ==== Sys2Proof/Machine/HostPort.lean ====
section
/-! DEFINITION. The host's accesses to the register space and the port space (R27, R28, R50 to R52), power-on reset (R330),
and the issue of a command by the write of CMD (R76, R80). -/

namespace Sys2Proof.Machine

open Sys2Proof

/-- What the host reads from register number n (R27): CMD and every reserved number read 0. -/
def regRead (n : Byte) (s : State) : Word :=
  match n.toNat with
  | 0x01 => zext16 s.status.code
  | 0x02 => zext16 s.stfCnt
  | 0x03 => unsStateWord s.unsCnt s.unsSkip
  | 0x04 => s.fcsCrc
  | 0x05 => ~~~s.fcsCrc
  | 0x06 => s.bres.word
  | 0x07 => zext16 s.fd.ctrl
  | 0x08 => zext16 s.fd.pid
  | 0x09 => zext16 s.fd.ndigi
  | 0x0A => s.fd.fcs
  | 0x0B => s.rx.statusWord
  | 0x0C => s.rx.ctrlPidWord
  | 0x0D => s.rx.fcs
  | _ => 0

/-- A host write of v to register number n other than CMD (R28): only the named fields of a read/write register are written;
every other write is ignored. -/
def regWrite (n : Byte) (v : Word) (s : State) : State :=
  match n.toNat with
  | 0x04 => s.setFcsCrc v
  | 0x07 => s.setFd { s.fd with ctrl := v.extractLsb' 0 8 }
  | 0x08 => s.setFd { s.fd with pid := v.extractLsb' 0 8 }
  | 0x09 => s.setFd { s.fd with ndigi := v.extractLsb' 0 4 }
  | _ => s

/-- `PortRead(P)`: the whole current content of a port (R12, R52). A scalar field is read as a number (log 6). -/
def portRead (p : PortName) (s : State) : HostVal :=
  match p with
  | .ibits => .bits s.ibits
  | .obits => .bits s.obits
  | .csIn => .bytes s.csIn
  | .csOut => .bytes s.csOut.toList
  | .fdDestTxt => .bytes s.fd.destTxt
  | .fdSrcTxt => .bytes s.fd.srcTxt
  | .fdDigiTxt i => .bytes s.fd.digiTxt[i]
  | .fdNdigi => .word (zext16 s.fd.ndigi)
  | .fdCtrl => .word (zext16 s.fd.ctrl)
  | .fdPid => .word (zext16 s.fd.pid)
  | .fdInfo => .bytes s.fd.info
  | .fdFcs => .word s.fd.fcs
  | .rxValid => .word (zext16 (BitVec.ofBool s.rx.valid))
  | .rxReason => .word (zext16 s.rx.reason.code)
  | .rxFcsSt => .word (zext16 s.rx.fcsSt.code)
  | .rxDest => .bytes s.rx.dest.toList
  | .rxSrc => .bytes s.rx.src.toList
  | .rxNdigi => .word (zext16 s.rx.ndigi)
  | .rxDigi i => .bytes s.rx.digi[i].toList
  | .rxCtrl => .word (zext16 s.rx.ctrl)
  | .rxPid => .word (zext16 s.rx.pid)
  | .rxInfo => .bytes s.rx.info
  | .rxFcs => .word s.rx.fcs

/-- The port's capacity admits the value (R8, R52). -/
def portWriteFits (w : PortWrite) (p : Params) : Bool :=
  match w with
  | .ibits v => decide (v.length ≤ p.ibitsMax)
  | .csIn v | .fdDestTxt v | .fdSrcTxt v | .fdDigiTxt _ v => decide (v.length ≤ p.txtMax)
  | .fdInfo v => decide (v.length ≤ p.maxInfoBytes)
  | .fdNdigi _ | .fdCtrl _ | .fdPid _ => true

/-- `PortWrite(P, v)` by the host: content and length are replaced together (R52). -/
def portWrite (w : PortWrite) (s : State) : State :=
  match w with
  | .ibits v => s.setIbits v
  | .csIn v => s.setCsIn v
  | .fdDestTxt v => s.setFd { s.fd with destTxt := v }
  | .fdSrcTxt v => s.setFd { s.fd with srcTxt := v }
  | .fdDigiTxt i v => s.setFd { s.fd with digiTxt := s.fd.digiTxt.set i v }
  | .fdNdigi v => s.setFd { s.fd with ndigi := v }
  | .fdCtrl v => s.setFd { s.fd with ctrl := v }
  | .fdPid v => s.setFd { s.fd with pid := v }
  | .fdInfo v => s.setFd { s.fd with info := v }

/-- Power-on reset (R330): RST's clearing, and the host-written state as well (R331). The capacities, the host's actions to
come and what it has read are not state of the core and stay (log 9). -/
def powerOnReset (s : State) : State :=
  ((((s.clearCoreState).setIbits []).setCsIn []).setFd Fd.reset).setStatus .ok

/-- A write of `cw` to CMD: Decode, then the selected rule, or the effect of an illegal word (R76, R80, R272). -/
def issue (cw : Word) (s : State) : Result :=
  match decode cw with
  | .ok i => exec i s
  | .error _ => illegalCommand s

/-- One host action, on the state in which it is no longer to come. -/
def hostStep (a : HostAct) (s : State) : Result :=
  match a with
  | .powerOnReset => .next (powerOnReset s)
  | .writeReg n v => if n = 0 then issue v s else .next (regWrite n v s)
  | .readReg n => .next (s.setReply (some (.word (regRead n s))))
  | .writePort w => if portWriteFits w s.cfg then .next (portWrite w s) else .fault .portWriteTooLong
  | .readPort p => .next (s.setReply (some (portRead p s)))

/-- The state in which the host's next action is the write of `cw` to CMD. -/
def State.queueCommand (s : State) (cw : Word) : State := s.setHost (.writeReg 0 cw :: s.host)

end Sys2Proof.Machine
end

