-- ==== Sys2Proof/Machine/Step.lean ====
section
/-! DEFINITION. One step: the host's next action takes effect, whole (R61, R62, R80). -/

namespace Sys2Proof.Machine

open Sys2Proof

/-- One step of the machine. With no host action to come the core is idle and "all state is kept while idle" (R313). -/
def step (s : State) : Host.Outcome State Fault Refusal :=
  match s.host with
  | [] => .next s
  | a :: rest => hostStep a (s.setHost rest)

/-- The core fetches no command, it executes the word the host writes to CMD (R64), so "storing the word where step fetches" is
making that write the host's next action (log 2). -/
def State.withFetchWord (s : State) (nbits w : Nat) : State := s.queueCommand (BitVec.ofNat 16 (w % 2 ^ nbits))

end Sys2Proof.Machine
end

