-- ==== Sys2Proof/Safety.lean ====
section
/-! DEFINITION. What a legal state is (the invariant of the reachable states, R21, R22, R25, R30 to R32, R302, I8), and the
terms the claims use: the opcode table's rows, runs of commands, flags and markers at an offset, and the header a frame
descriptor has. -/

namespace Sys2Proof.Machine

open Sys2Proof

/-! ## The invariant -/

/-- The counters hold 0..4, a pending skip has count 0, and BRES is what STF.BIT and UNS.BIT can leave: at most two bits, a
field beyond BRES_N reads 0, and the second bit is only ever the stuffed 0 (R21, R22, R25, R102, R122). -/
abbrev State.unitsOk (s : State) : Prop :=
  s.stfCnt.toNat ≤ 4 ∧ s.unsCnt.toNat ≤ 4 ∧ (s.unsSkip = true → s.unsCnt = 0)
    ∧ s.bres.n.toNat ≤ 2 ∧ (s.bres.n = 0 → s.bres.b0 = false) ∧ s.bres.b1 = false

/-- Every port holds at most its capacity (R20, R30, R31). -/
abbrev State.portsFit (s : State) : Prop :=
  s.ibits.length ≤ s.cfg.ibitsMax ∧ s.obits.length ≤ s.cfg.obitsMax ∧ s.csIn.length ≤ s.cfg.txtMax
    ∧ s.fd.destTxt.length ≤ s.cfg.txtMax ∧ s.fd.srcTxt.length ≤ s.cfg.txtMax
    ∧ (∀ i : Fin 8, s.fd.digiTxt[i].length ≤ s.cfg.txtMax)
    ∧ s.fd.info.length ≤ s.cfg.maxInfoBytes

/-- RX after a successful decode (R32, R172, R238, R243). -/
abbrev Rx.validOk (r : Rx) : Prop :=
  r.reason = .ok ∧ r.ctrl = 0x03 ∧ r.pid = 0xF0 ∧ r.ndigi.toNat ≤ 8
    ∧ (∀ i : Fin 8, r.ndigi.toNat ≤ i.val → r.digi[i] = Addr.zero)
    ∧ (∀ j : Fin 7, r.dest[j].toNat ≤ 0x7F ∧ r.src[j].toNat ≤ 0x7F)
    ∧ (∀ i : Fin 8, ∀ j : Fin 7, r.digi[i][j].toNat ≤ 0x7F)

/-- RX after a failed decode, or after reset: the sentinel, with one of the codes HDR.DES can fail with (R32, R239, R303). -/
abbrev Rx.failedOk (r : Rx) : Prop :=
  r = Rx.sentinel r.reason r.fcsSt
    ∧ r.reason ∈ [Status.ok, .frameNotFound, .headerMarkerNotFound, .malformed, .capacity]
    ∧ (r.reason = .ok ∨ r.reason = .frameNotFound → r.fcsSt = .notChecked)

/-- RX holds a decoded frame or the sentinel, never a partly written one (R230, R239). -/
abbrev Rx.good (r : Rx) (maxInfo : Nat) : Prop :=
  r.info.length ≤ maxInfo ∧ (r.valid = true → r.validOk) ∧ (r.valid = false → r.failedOk)

/-- The invariant of the reachable states. -/
structure State.Inv (s : State) : Prop where
  cfgOk : s.cfg.ok
  unitsOk : s.unitsOk
  portsFit : s.portsFit
  rxGood : s.rx.good s.cfg.maxInfoBytes

/-! ## Terms of the claims -/

/-- The rows of spec/opcode_table.json as (mask, match) (R73, R76). -/
def tableRows : List (Word × Word) :=
  [(0xFFFF, 0x0100), (0xFFFF, 0x0200), (0xFFFF, 0x1000), (0xFFFE, 0x1100), (0xFFFF, 0x1200), (0xFFFF, 0x2000),
   (0xFFFE, 0x2100), (0xFFFF, 0x2200), (0xFFFF, 0x3000), (0xFFFE, 0x3100)] ++
  [(0xFF00, 0x3200), (0xFFFF, 0x3300), (0xFFFF, 0x3400), (0xFF80, 0x4000), (0xFFFF, 0x4100), (0xFFFF, 0x5000),
   (0xFFFF, 0x5100), (0xFFFF, 0x5200), (0xFFFF, 0x6000)]

/-- A word that no row matches (R74). -/
def illegalWord (cw : Word) : Prop := ∀ r ∈ tableRows, cw &&& r.1 ≠ r.2

/-- `w` is the one command word of `i` (R73). -/
def onlyWord (i : Instr) (w : Word) : Prop := ∀ cw, decode cw = .ok i ↔ cw = w

/-- A word with opcode `opc` that is not `good`, issued, only sets STATUS to ILLEGAL_COMMAND (R74, R272). -/
def illegalOtherwise (opc : Byte) (good : Word → Prop) : Prop :=
  ∀ (cw : Word) (s : State), opcOf cw = opc → ¬ good cw → issue cw s = .next { s with status := .illegalCommand }

end Sys2Proof.Machine

namespace Sys2Proof

open Sys2Proof.Machine

/-- The commands that read and write whole sequences (R33). -/
def Instr.wholeSequence : Instr → Bool
  | .stfSeq | .unsSeq | .fcsApp | .fcsVal | .csEnc _ | .csDec | .hdrHdr | .hdrFcsf | .hdrSer | .hdrDes => true
  | .rst | .nop | .stfClr | .stfBit _ | .unsClr | .unsBit _ | .fcsInit | .fcsBit _ | .fcsByte _ => false

/-- The commands of the incremental units (R21 to R25). -/
def Instr.incremental : Instr → Bool
  | .stfClr | .stfBit _ | .unsClr | .unsBit _ | .fcsInit | .fcsBit _ | .fcsByte _ => true
  | .rst | .nop | .stfSeq | .unsSeq | .fcsApp | .fcsVal | .csEnc _ | .csDec | .hdrHdr | .hdrFcsf | .hdrSer
  | .hdrDes => false

/-- The commands of the FCS engine's incremental form (R144 to R146). -/
def Instr.fcsIncremental : Instr → Bool
  | .fcsInit | .fcsBit _ | .fcsByte _ => true
  | .rst | .nop | .stfClr | .stfBit _ | .stfSeq | .unsClr | .unsBit _ | .unsSeq | .fcsApp | .fcsVal | .csEnc _
  | .csDec | .hdrHdr | .hdrFcsf | .hdrSer | .hdrDes => false

/-- The codes other than OK and ILLEGAL_COMMAND that a command writes to STATUS (the table of R303). -/
def Instr.failureCodes : Instr → List Status
  | .rst | .nop | .stfClr | .stfBit _ | .unsClr | .unsBit _ | .fcsInit | .fcsBit _ | .fcsByte _ => []
  | .stfSeq | .unsSeq | .fcsApp => [.capacity]
  | .fcsVal => [.checksumMismatch, .capacity]
  | .csEnc _ | .csDec => [.structuralError]
  | .hdrHdr | .hdrSer => [.structuralError, .capacity]
  | .hdrFcsf => [.structuralError]
  | .hdrDes => [.frameNotFound, .headerMarkerNotFound, .malformed, .capacity]

end Sys2Proof

namespace Sys2Proof.Machine

open Sys2Proof

/-- The unit registers of `s`, replaced by those of `u` (R33, R304). -/
def State.withUnitsOf (s u : State) : State :=
  { s with stfCnt := u.stfCnt, unsCnt := u.unsCnt, unsSkip := u.unsSkip, fcsCrc := u.fcsCrc, bres := u.bres }

/-- The outcome with the unit registers of `u` in the state it goes on with. -/
def withUnitsResult (u : State) : Result → Result
  | .next t => .next (t.withUnitsOf u)
  | .fault r => .fault r
  | .refused r => .refused r

/-- Commands one after another, each on the state the one before left. -/
def runCommands : List Instr → State → Result
  | [], s => .next s
  | i :: is, s =>
    match exec i s with
    | .next t => runCommands is t
    | .fault r => .fault r
    | .refused r => .refused r

/-- The bits BRES reports (R25). -/
def Bres.bits (b : Bres) : Bits := [b.b0, b.b1].take b.n.toNat

/-- The bits that BRES reports after each of the commands, in order. -/
def emittedBy : List Instr → State → Bits
  | [], _ => []
  | i :: is, s =>
    match exec i s with
    | .next t => t.bres.bits ++ emittedBy is t
    | .fault _ | .refused _ => []

/-- The 16 bits of a word, least-significant first (R13, R56). -/
def wireBits16 (v : Word) : Bits := (List.range 16).map fun i => v.getLsbD i

/-- The 8-bit flag pattern 0 1 1 1 1 1 1 0 (R205). -/
def flagPattern : Bits := [false, true, true, true, true, true, true, false]

/-- The flag pattern stands at bit offset i (R231). -/
def flagAt (s : Bits) (i : Nat) : Prop := (s.drop i).take 8 = flagPattern

/-- The least offset of the flag pattern from `start` on is i (R231). -/
def firstFlag (s : Bits) (start i : Nat) : Prop :=
  start ≤ i ∧ flagAt s i ∧ ∀ k, start ≤ k → k < i → ¬ flagAt s k

/-- No flag pattern stands at `start` or later (R231). -/
def noFlag (s : Bits) (start : Nat) : Prop := ∀ k, start ≤ k → ¬ flagAt s k

/-- The bytes 0x03 0xF0 stand at byte offset k (R235). -/
def markerAt (B : Bytes) (k : Nat) : Prop := B[k]? = some 0x03 ∧ B[k + 1]? = some 0xF0

/-- The first two flags of `s` enclose bits that unstuff to `u` (R231, R232). -/
def bodyBits (s u : Bits) : Prop :=
  ∃ s1 s2, firstFlag s 0 s1 ∧ firstFlag s (s1 + 8) s2 ∧ u = unstuff ((s.drop (s1 + 8)).take (s2 - (s1 + 8)))

/-- The integrity result of a body that ends in the bytes `lo`, `hi` (R234). -/
def fcsStOf (front : Bytes) (lo hi : Byte) : FcsSt :=
  if ~~~(crcBytes front) = hi ++ lo then .fcsOk else .fcsMismatch

/-- RX.FCS_ST for a body of whole bytes `B` is `f` (R234). -/
def integrityIs (B : Bytes) (f : FcsSt) : Prop :=
  (B.length < 2 ∧ f = .notChecked) ∨ ∃ front lo hi, B = front ++ [lo, hi] ∧ f = fcsStOf front lo hi

/-- The texts of a frame descriptor in path order (R200, R201). -/
def pathTexts (fd : Fd) : List Bytes := fd.destTxt :: fd.srcTxt :: fd.digiTxt.toList.take fd.ndigi.toNat

/-- `h` is `header(FD)` (R201, R202): each text encoded with default SSID '0', the last address byte's bit 0 set, then control
and protocol ID. -/
def headerIs (fd : Fd) (h : Bytes) : Prop :=
  fd.ndigi.toNat ≤ 8 ∧ ∃ (A : List Addr) (front : Bytes) (last : Byte),
    List.Forall₂ (fun T e => encodeCallsign T 0x30 = some e) (pathTexts fd) A
      ∧ (A.map Vector.toList).flatten = front ++ [last] ∧ h = front ++ [last ||| 0x01, fd.ctrl, fd.pid]

/-- The serializer's structural errors (R209, items 1 to 4). -/
def headerFails (fd : Fd) : Prop :=
  8 < fd.ndigi.toNat ∨ ∃ T ∈ pathTexts fd, encodeCallsign T 0x30 = none

/-- Upper case of a callsign text: bytes 0x61..0x7A less 0x20 (R170). -/
def upperText (T : Bytes) : Bytes := T.map fun b => if 0x61#8 ≤ b ∧ b ≤ 0x7A#8 then b - 0x20 else b

/-- The address of a base and an SSID character: padded to six with spaces, each byte shifted left by one (R170). -/
def paddedShifted (base : Bytes) (ssid : Byte) : Bytes :=
  (base ++ List.replicate (6 - base.length) 0x20 ++ [ssid]).map fun b : Byte => b <<< 1

end Sys2Proof.Machine
end

