-- ==== Sys2Proof/Certificates/Slice0/Obligations.lean ====
section
/-! DEFINITION. The statements for the provers, from the spec's numbered rules. -/

open Sys2Proof Sys2Proof.Machine

/-! ## Commands: encoding, result with frame, illegal forms -/

/-- R270. RST sets every piece of core-written state to its reset value and keeps the host-written inputs. -/
def Obligations.RstResetsCoreStateKeepsInputs : Prop :=
  onlyWord .rst 0x0100 ∧ illegalOtherwise 0x01 (· = 0x0100) ∧
  ∀ s : State, exec .rst s = .next { s with
    stfCnt := 0, unsCnt := 0, unsSkip := false, fcsCrc := 0xFFFF, bres := ⟨0, false, false⟩, obits := [],
    csOut := Addr.zero, fd := { s.fd with fcs := 0x0000 }, rx := Rx.reset, status := .ok }

/-- R271. NOP sets STATUS to OK and writes nothing else. -/
def Obligations.NopSetsStatusOkOnly : Prop :=
  onlyWord .nop 0x0200 ∧ illegalOtherwise 0x02 (· = 0x0200) ∧
  ∀ s : State, exec .nop s = .next { s with status := .ok }

/-- R101. STF.CLR clears STF_CNT and writes nothing else but STATUS. -/
def Obligations.StfClrClearsCount : Prop :=
  onlyWord .stfClr 0x1000 ∧ illegalOtherwise 0x10 (· = 0x1000) ∧
  ∀ s : State, exec .stfClr s = .next { s with stfCnt := 0, status := .ok }

/-- R102. STF.BIT by its three cases, for every count 0..4 (R21), and what a run of STF.BIT commands emits from count 0 (the
last sentence of R102, which the spec derives). -/
def Obligations.StfBitStuffsOneBit : Prop :=
  onlyWord (.stfBit false) 0x1100 ∧ onlyWord (.stfBit true) 0x1101 ∧
  illegalOtherwise 0x11 (fun w => w = 0x1100 ∨ w = 0x1101) ∧
  (∀ s : State, exec (.stfBit false) s = .next { s with stfCnt := 0, bres := ⟨1, false, false⟩, status := .ok }) ∧
  (∀ s : State, s.stfCnt.toNat < 4 →
    exec (.stfBit true) s = .next { s with stfCnt := s.stfCnt + 1, bres := ⟨1, true, false⟩, status := .ok }) ∧
  (∀ s : State, s.stfCnt = 4 →
    exec (.stfBit true) s = .next { s with stfCnt := 0, bres := ⟨2, true, false⟩, status := .ok }) ∧
  (∀ (s : State) (bs : Bits), s.stfCnt = 0 → emittedBy (Pseudo.expand (.stfBits bs)) s = stuff bs)

/-- R103. STF.SEQ stuffs IBITS into OBITS, or fails with CAPACITY and empties OBITS. -/
def Obligations.StfSeqStuffsInput : Prop :=
  onlyWord .stfSeq 0x1200 ∧ illegalOtherwise 0x12 (· = 0x1200) ∧
  (∀ s : State, (stuff s.ibits).length ≤ s.cfg.obitsMax →
    exec .stfSeq s = .next { s with obits := stuff s.ibits, status := .ok }) ∧
  (∀ s : State, s.cfg.obitsMax < (stuff s.ibits).length →
    exec .stfSeq s = .next { s with obits := [], status := .capacity })

/-- R121. UNS.CLR clears the count and a pending skip, and writes nothing else but STATUS. -/
def Obligations.UnsClrClearsCountAndSkip : Prop :=
  onlyWord .unsClr 0x2000 ∧ illegalOtherwise 0x20 (· = 0x2000) ∧
  ∀ s : State, exec .unsClr s = .next { s with unsCnt := 0, unsSkip := false, status := .ok }

/-- R122. UNS.BIT by its four cases, for every count 0..4 (R22), and what a run of UNS.BIT commands passes from (0, 0) (the last
sentence of R122, which the spec derives). -/
def Obligations.UnsBitUnstuffsOneBit : Prop :=
  onlyWord (.unsBit false) 0x2100 ∧ onlyWord (.unsBit true) 0x2101 ∧
  illegalOtherwise 0x21 (fun w => w = 0x2100 ∨ w = 0x2101) ∧
  (∀ (s : State) (b : Bool), s.unsSkip = true → s.unsCnt = 0 →
    exec (.unsBit b) s = .next { s with unsSkip := false, bres := ⟨0, false, false⟩, status := .ok }) ∧
  (∀ s : State, s.unsSkip = false →
    exec (.unsBit false) s = .next { s with unsCnt := 0, bres := ⟨1, false, false⟩, status := .ok }) ∧
  (∀ s : State, s.unsSkip = false → s.unsCnt.toNat < 4 →
    exec (.unsBit true) s = .next { s with unsCnt := s.unsCnt + 1, bres := ⟨1, true, false⟩, status := .ok }) ∧
  (∀ s : State, s.unsSkip = false → s.unsCnt = 4 →
    exec (.unsBit true) s = .next { s with unsCnt := 0, unsSkip := true, bres := ⟨1, true, false⟩, status := .ok }) ∧
  (∀ (s : State) (bs : Bits), s.unsCnt = 0 → s.unsSkip = false →
    emittedBy (Pseudo.expand (.unsBits bs)) s = unstuff bs)

/-- R123. UNS.SEQ unstuffs IBITS into OBITS, or fails with CAPACITY and empties OBITS. -/
def Obligations.UnsSeqUnstuffsInput : Prop :=
  onlyWord .unsSeq 0x2200 ∧ illegalOtherwise 0x22 (· = 0x2200) ∧
  (∀ s : State, (unstuff s.ibits).length ≤ s.cfg.obitsMax →
    exec .unsSeq s = .next { s with obits := unstuff s.ibits, status := .ok }) ∧
  (∀ s : State, s.cfg.obitsMax < (unstuff s.ibits).length →
    exec .unsSeq s = .next { s with obits := [], status := .capacity })

/-- R144. FCS.INIT seeds the accumulator, after which FCS_DIG reads 0. -/
def Obligations.FcsInitSeedsAccumulator : Prop :=
  onlyWord .fcsInit 0x3000 ∧ illegalOtherwise 0x30 (· = 0x3000) ∧
  ∀ s : State, exec .fcsInit s = .next { s with fcsCrc := 0xFFFF, status := .ok } ∧
    regRead 0x05 { s with fcsCrc := 0xFFFF, status := .ok } = 0x0000

/-- R140 and R145. FCS.BIT shifts the accumulator right and folds 0x8408 in when its bit 0 differs from b; a run of FCS.BIT
commands after FCS.INIT leaves crc_bits (the last sentence of R145, which the spec derives). -/
def Obligations.FcsBitFoldsOneBit : Prop :=
  onlyWord (.fcsBit false) 0x3100 ∧ onlyWord (.fcsBit true) 0x3101 ∧
  illegalOtherwise 0x31 (fun w => w = 0x3100 ∨ w = 0x3101) ∧
  (∀ (s : State) (b : Bool), s.fcsCrc.getLsbD 0 = b →
    exec (.fcsBit b) s = .next { s with fcsCrc := s.fcsCrc >>> 1, status := .ok }) ∧
  (∀ (s : State) (b : Bool), s.fcsCrc.getLsbD 0 = !b →
    exec (.fcsBit b) s = .next { s with fcsCrc := (s.fcsCrc >>> 1) ^^^ 0x8408, status := .ok }) ∧
  (∀ (s : State) (bs : Bits), runCommands (.fcsInit :: Pseudo.expand (.fcsBits bs)) s
    = .next { s with fcsCrc := crcBits bs, status := .ok })

/-- R141 and R146. FCS.BYTE v is the eight commands FCS.BIT v[7] ... FCS.BIT v[0], every word 0x3200..0x32FF is one, and a run
of FCS.BYTE commands after FCS.INIT leaves crc_bytes (both sentences of R146 the spec derives from R141). -/
def Obligations.FcsByteFoldsMsbFirst : Prop :=
  (∀ cw v, decode cw = .ok (.fcsByte v) ↔ cw = 0x3200 + v.setWidth 16) ∧
  (∀ (s : State) (v : Byte), exec (.fcsByte v) s = runCommands (Pseudo.expand (.fcsBits
    [v.getLsbD 7, v.getLsbD 6, v.getLsbD 5, v.getLsbD 4, v.getLsbD 3, v.getLsbD 2, v.getLsbD 1, v.getLsbD 0])) s) ∧
  (∀ (s : State) (v : Byte), ∃ crc, exec (.fcsByte v) s = .next { s with fcsCrc := crc, status := .ok }) ∧
  (∀ (s : State) (B : Bytes), runCommands (.fcsInit :: Pseudo.expand (.fcsBytes B)) s
    = .next { s with fcsCrc := crcBytes B, status := .ok })

/-- R148. FCS.APP copies IBITS and appends the one's complement of its crc_bits, least-significant bit first; or CAPACITY. -/
def Obligations.FcsAppAppendsDigest : Prop :=
  onlyWord .fcsApp 0x3300 ∧ illegalOtherwise 0x33 (· = 0x3300) ∧
  (∀ s : State, s.ibits.length + 16 ≤ s.cfg.obitsMax →
    exec .fcsApp s = .next { s with obits := s.ibits ++ wireBits16 (~~~(crcBits s.ibits)), status := .ok }) ∧
  (∀ s : State, s.cfg.obitsMax < s.ibits.length + 16 →
    exec .fcsApp s = .next { s with obits := [], status := .capacity })

/-- R149. FCS.VAL: fewer than 16 bits, then the trailer, then the capacity; on success OBITS is the body. -/
def Obligations.FcsValChecksTrailer : Prop :=
  onlyWord .fcsVal 0x3400 ∧ illegalOtherwise 0x34 (· = 0x3400) ∧
  (∀ s : State, s.ibits.length < 16 → exec .fcsVal s = .next { s with obits := [], status := .checksumMismatch }) ∧
  (∀ (s : State) (body trailer : Bits), s.ibits = body ++ trailer → trailer.length = 16 →
    trailer ≠ wireBits16 (~~~(crcBits body)) →
    exec .fcsVal s = .next { s with obits := [], status := .checksumMismatch }) ∧
  (∀ (s : State) (body : Bits), s.ibits = body ++ wireBits16 (~~~(crcBits body)) → body.length ≤ s.cfg.obitsMax →
    exec .fcsVal s = .next { s with obits := body, status := .ok }) ∧
  (∀ (s : State) (body : Bits), s.ibits = body ++ wireBits16 (~~~(crcBits body)) → s.cfg.obitsMax < body.length →
    exec .fcsVal s = .next { s with obits := [], status := .capacity })

/-- R170 and R173. CS.ENC without and with an SSID suffix, and its failures. -/
def Obligations.CsEncEncodesCallsign : Prop :=
  (∀ cw c, decode cw = .ok (.csEnc c) ↔ c.toNat < 128 ∧ cw = 0x4000 + c.setWidth 16) ∧
  illegalOtherwise 0x40 (fun w => w.toNat < 0x4080) ∧
  (∀ (s : State) (c : Byte), c.toNat ≤ 0x7F → (∀ b ∈ s.csIn, b.toNat ≤ 0x7F ∧ b ≠ 0x2D) →
    1 ≤ s.csIn.length → s.csIn.length ≤ 6 →
    ∃ r : Addr, r.toList = paddedShifted (upperText s.csIn) c ∧
      exec (.csEnc c) s = .next { s with csOut := r, status := .ok }) ∧
  (∀ (s : State) (c : Byte) (base : Bytes) (x : Byte), c.toNat ≤ 0x7F → s.csIn = base ++ [0x2D, x] →
    (∀ b ∈ base, b.toNat ≤ 0x7F ∧ b ≠ 0x2D) → x.toNat ≤ 0x7F → x ≠ 0x2D → 1 ≤ base.length → base.length ≤ 6 →
    ∃ r : Addr, r.toList = paddedShifted (upperText base) ((upperText [x]).getD 0 0) ∧
      exec (.csEnc c) s = .next { s with csOut := r, status := .ok }) ∧
  (∀ (s : State) (c : Byte),
    (0x7F < c.toNat ∨ (∃ b ∈ s.csIn, 0x7F < b.toNat) ∨ 2 ≤ s.csIn.count 0x2D ∨
      (s.csIn.count 0x2D = 0 ∧ (s.csIn.length = 0 ∨ 6 < s.csIn.length)) ∨
      (∃ base suffix, s.csIn = base ++ 0x2D :: suffix ∧
        (suffix.length ≠ 1 ∨ base.length = 0 ∨ 6 < base.length) ∧ s.csIn.count 0x2D = 1)) →
    exec (.csEnc c) s = .next { s with csOut := Addr.zero, status := .structuralError })

/-- R172 and R174. CS.DEC shifts each of the 7 bytes right by one bit, and fails on any other length. -/
def Obligations.CsDecDecodesAddress : Prop :=
  onlyWord .csDec 0x4100 ∧ illegalOtherwise 0x41 (· = 0x4100) ∧
  (∀ s : State, s.csIn.length = 7 →
    ∃ r : Addr, r.toList = s.csIn.map (fun b : Byte => b >>> 1) ∧
      exec .csDec s = .next { s with csOut := r, status := .ok }) ∧
  (∀ s : State, s.csIn.length ≠ 7 →
    exec .csDec s = .next { s with csOut := Addr.zero, status := .structuralError })

/-- R202 and R206. HDR.HDR emits the header's bits, neither stuffed nor flagged. -/
def Obligations.HdrHdrEmitsHeaderBits : Prop :=
  onlyWord .hdrHdr 0x5000 ∧ illegalOtherwise 0x50 (· = 0x5000) ∧
  (∀ (s : State) (h : Bytes), headerIs s.fd h → 8 * h.length ≤ s.cfg.obitsMax →
    exec .hdrHdr s = .next { s with obits := bitsOf h, status := .ok }) ∧
  (∀ (s : State) (h : Bytes), headerIs s.fd h → s.cfg.obitsMax < 8 * h.length →
    exec .hdrHdr s = .next { s with obits := [], status := .capacity }) ∧
  (∀ s : State, headerFails s.fd → exec .hdrHdr s = .next { s with obits := [], status := .structuralError })

/-- R203 and R207. HDR.FCSF computes the frame FCS over header and info, and keeps the old one on failure. -/
def Obligations.HdrFcsfComputesFrameFcs : Prop :=
  onlyWord .hdrFcsf 0x5100 ∧ illegalOtherwise 0x51 (· = 0x5100) ∧
  (∀ (s : State) (h : Bytes), headerIs s.fd h →
    exec .hdrFcsf s = .next { s with fd := { s.fd with fcs := ~~~(crcBytes (h ++ s.fd.info)) }, status := .ok }) ∧
  (∀ s : State, headerFails s.fd → exec .hdrFcsf s = .next { s with status := .structuralError })

/-- R203 to R205 and R208. HDR.SER: flag, stuffed header, info and FCS (low byte first), flag; FD.FCS; or its failures. -/
def Obligations.HdrSerSerializesFrame : Prop :=
  onlyWord .hdrSer 0x5200 ∧ illegalOtherwise 0x52 (· = 0x5200) ∧
  (∀ (s : State) (h : Bytes) (lo hi : Byte), headerIs s.fd h → hi ++ lo = ~~~(crcBytes (h ++ s.fd.info)) →
    16 + (stuff (bitsOf (h ++ s.fd.info ++ [lo, hi]))).length ≤ s.cfg.obitsMax →
    exec .hdrSer s = .next { s with
      obits := flagPattern ++ stuff (bitsOf (h ++ s.fd.info ++ [lo, hi])) ++ flagPattern,
      fd := { s.fd with fcs := hi ++ lo }, status := .ok }) ∧
  (∀ (s : State) (h : Bytes) (lo hi : Byte), headerIs s.fd h → hi ++ lo = ~~~(crcBytes (h ++ s.fd.info)) →
    s.cfg.obitsMax < 16 + (stuff (bitsOf (h ++ s.fd.info ++ [lo, hi]))).length →
    exec .hdrSer s = .next { s with obits := [], status := .capacity }) ∧
  (∀ s : State, headerFails s.fd → exec .hdrSer s = .next { s with obits := [], status := .structuralError })

/-- R231 to R238 and R240. HDR.DES on a sequence whose first two flags enclose, stuffed, two addresses, k ≤ 8 digipeaters, the
marker, an info field and a trailer, with no earlier marker: every RX field, and nothing else but STATUS. -/
def Obligations.HdrDesDecodesFrame : Prop :=
  onlyWord .hdrDes 0x6000 ∧ illegalOtherwise 0x60 (· = 0x6000) ∧
  ∀ (s : State) (B dest src digis info : Bytes) (k : Nat) (lo hi : Byte),
    bodyBits s.ibits (bitsOf B) →
    B = dest ++ src ++ digis ++ [0x03, 0xF0] ++ info ++ [lo, hi] →
    dest.length = 7 → src.length = 7 → digis.length = 7 * k → k ≤ 8 → info.length ≤ s.cfg.maxInfoBytes →
    (∀ i, 14 ≤ i → i < 14 + 7 * k → ¬ markerAt B i) →
    ∃ r : Rx, exec .hdrDes s = .next { s with rx := r, status := .ok } ∧
      r.valid = true ∧ r.reason = .ok ∧ r.fcsSt = fcsStOf (dest ++ src ++ digis ++ [0x03, 0xF0] ++ info) lo hi ∧
      r.dest.toList = dest.map (fun b : Byte => b >>> 1) ∧ r.src.toList = src.map (fun b : Byte => b >>> 1) ∧
      r.ndigi.toNat = k ∧
      (∀ i : Fin 8, i.val < k → r.digi[i].toList = ((digis.drop (7 * i.val)).take 7).map (fun b : Byte => b >>> 1)) ∧
      (∀ i : Fin 8, k ≤ i.val → r.digi[i] = Addr.zero) ∧
      r.ctrl = 0x03 ∧ r.pid = 0xF0 ∧ r.info = info ∧ r.fcs = hi ++ lo

/-- R231, R233 to R236, R239 and R241. HDR.DES fails, in this order, on: no first or second flag; a body of no whole bytes; no
marker; a marker that overlaps the trailer; a digipeater block of no whole addresses, or of more than 8; too long an info
field. Each failure writes the whole sentinel, with the integrity result where the body is whole bytes. -/
def Obligations.HdrDesFailuresWriteSentinel : Prop :=
  (∀ s : State, (noFlag s.ibits 0 ∨ ∃ s1, firstFlag s.ibits 0 s1 ∧ noFlag s.ibits (s1 + 8)) →
    exec .hdrDes s = .next { s with rx := Rx.sentinel .frameNotFound .notChecked, status := .frameNotFound }) ∧
  (∀ (s : State) (u : Bits), bodyBits s.ibits u → u.length % 8 ≠ 0 →
    exec .hdrDes s = .next { s with rx := Rx.sentinel .malformed .notChecked, status := .malformed }) ∧
  (∀ (s : State) (B : Bytes) (f : FcsSt), bodyBits s.ibits (bitsOf B) → integrityIs B f →
    (∀ k, 14 ≤ k → ¬ markerAt B k) →
    exec .hdrDes s
      = .next { s with rx := Rx.sentinel .headerMarkerNotFound f, status := .headerMarkerNotFound }) ∧
  (∀ (s : State) (B : Bytes) (f : FcsSt) (j : Nat), bodyBits s.ibits (bitsOf B) → integrityIs B f →
    14 ≤ j → markerAt B j → (∀ k, 14 ≤ k → k < j → ¬ markerAt B k) →
    (B.length < j + 4 ∨ (j - 14) % 7 ≠ 0 ∨ 14 + 7 * 8 < j) →
    exec .hdrDes s = .next { s with rx := Rx.sentinel .malformed f, status := .malformed }) ∧
  (∀ (s : State) (B : Bytes) (f : FcsSt) (j : Nat), bodyBits s.ibits (bitsOf B) → integrityIs B f →
    14 ≤ j → markerAt B j → (∀ k, 14 ≤ k → k < j → ¬ markerAt B k) →
    j + 4 ≤ B.length → (j - 14) % 7 = 0 → j ≤ 14 + 7 * 8 → s.cfg.maxInfoBytes < B.length - (j + 4) →
    exec .hdrDes s = .next { s with rx := Rx.sentinel .capacity f, status := .capacity })

/-! ## Decoding and stepping -/

/-- Decode and encode agree in both directions: a word decodes to a command exactly when the command is well-formed and the word
is its encoding (R71 to R73, R76, R78). -/
def Obligations.DecodeInvertsEncode : Prop :=
  ∀ (cw : Word) (i : Instr), decode cw = .ok i ↔ (i.wellFormed = true ∧ encode i = cw)

/-- R76. Every word is matched by at most one row of the opcode table, and decodes exactly when a row matches it. -/
def Obligations.DecodableWordsAreTheTableRows : Prop :=
  (∀ cw : Word, (∃ i, decode cw = .ok i) ↔ ∃ r ∈ tableRows, cw &&& r.1 = r.2) ∧
  (∀ cw : Word, ∀ r ∈ tableRows, ∀ q ∈ tableRows, cw &&& r.1 = r.2 → cw &&& q.1 = q.2 → r = q)

/-- Words written out from R73 and R78 decode to the commands they stand for, one of each family. -/
def Obligations.WrittenWordsDecodeAsTheSpecSays : Prop :=
  decode 0x0100 = .ok .rst ∧ decode 0x1101 = .ok (.stfBit true) ∧ decode 0x2100 = .ok (.unsBit false) ∧
  decode 0x327E = .ok (.fcsByte 0x7E) ∧ decode 0x3300 = .ok .fcsApp ∧ decode 0x4030 = .ok (.csEnc 0x30) ∧
  decode 0x5200 = .ok .hdrSer ∧ decode 0x6000 = .ok .hdrDes

/-- R80. A step whose host action is the write of a word to CMD issues that word on the state without that action, and a
command's word runs the command; the model's queue of host actions is its own (log 2). -/
def Obligations.StepRunsTheWrittenCommand : Prop :=
  (∀ (s : State) (cw : Word) (rest : List HostAct), s.host = .writeReg 0x00 cw :: rest →
    step s = issue cw { s with host := rest } ∧ ∀ i, decode cw = .ok i → step s = exec i { s with host := rest }) ∧
  (∀ (s : State) (cw : Word), step (s.queueCommand cw) = issue cw s) ∧
  (∀ (s : State) (i : Instr), i.wellFormed = true → step (s.queueCommand (encode i)) = exec i s)

/-- R74, R75 and R272. A word that no opcode row matches sets STATUS to ILLEGAL_COMMAND when it is issued, and changes no other
state; the words of every reserved opcode are such words. -/
def Obligations.IllegalWordOnlySetsStatus : Prop :=
  (∀ (s : State) (cw : Word), illegalWord cw → issue cw s = .next { s with status := .illegalCommand }) ∧
  (∀ cw : Word, (opcOf cw = 0x00 ∨ (0x03 ≤ (opcOf cw).toNat ∧ (opcOf cw).toNat ≤ 0x0F) ∨
    (0x13 ≤ (opcOf cw).toNat ∧ (opcOf cw).toNat ≤ 0x1F) ∨ (0x23 ≤ (opcOf cw).toNat ∧ (opcOf cw).toNat ≤ 0x2F) ∨
    (0x35 ≤ (opcOf cw).toNat ∧ (opcOf cw).toNat ≤ 0x3F) ∨ (0x42 ≤ (opcOf cw).toNat ∧ (opcOf cw).toNat ≤ 0x4F) ∨
    (0x53 ≤ (opcOf cw).toNat ∧ (opcOf cw).toNat ≤ 0x5F) ∨ 0x61 ≤ (opcOf cw).toNat) → illegalWord cw)

/-- R313. With no host action to come the core is idle and keeps all its state. -/
def Obligations.IdleCoreKeepsAllState : Prop := ∀ s : State, s.host = [] → step s = .next s

/-! ## Whole-machine rules -/

/-- Every command and every command word completes in every state (R18), and touches none of the model's own fields, which are
its own choice (logs 1, 2 and 3). -/
def Obligations.EveryCommandCompletes : Prop :=
  (∀ (i : Instr) (s : State), ∃ t, exec i s = .next t ∧ t.cfg = s.cfg ∧ t.host = s.host ∧ t.reply = s.reply) ∧
  (∀ (cw : Word) (s : State), ∃ t, issue cw s = .next t)

/-- Every command leaves every piece of state unchanged but that of which the rules R21 to R23, R25, R30 to R32 name it as a
writer (STATUS, which every command writes, R26, apart). -/
def Obligations.StateIsWrittenOnlyByItsWriters : Prop :=
  ∀ (i : Instr) (s t : State), exec i s = .next t →
    t.ibits = s.ibits ∧ t.csIn = s.csIn ∧ t.fd = { s.fd with fcs := t.fd.fcs } ∧
    (i ∉ [Instr.rst, .stfClr, .stfBit false, .stfBit true] → t.stfCnt = s.stfCnt) ∧
    (i ∉ [Instr.rst, .unsClr, .unsBit false, .unsBit true] → t.unsCnt = s.unsCnt ∧ t.unsSkip = s.unsSkip) ∧
    (i ≠ .rst → i.fcsIncremental = false → t.fcsCrc = s.fcsCrc) ∧
    (i ∉ [Instr.rst, .stfBit false, .stfBit true, .unsBit false, .unsBit true] → t.bres = s.bres) ∧
    (i ∉ [Instr.rst, .stfSeq, .unsSeq, .fcsApp, .fcsVal, .hdrHdr, .hdrSer] → t.obits = s.obits) ∧
    (i ≠ .rst → i ≠ .csDec → (∀ c, i ≠ .csEnc c) → t.csOut = s.csOut) ∧
    (i ∉ [Instr.rst, .hdrFcsf, .hdrSer] → t.fd.fcs = s.fd.fcs) ∧
    (i ∉ [Instr.rst, .hdrDes] → t.rx = s.rx)

/-- R33. The whole-sequence commands neither read nor write STF_CNT, UNS_CNT, UNS_SKIP, FCS_CRC or BRES: with other values in
those registers the outcome is the same but for those values, which stay. -/
def Obligations.WholeSequenceCommandsIgnoreUnitRegisters : Prop :=
  ∀ (i : Instr) (s u : State), i.wholeSequence = true →
    exec i (s.withUnitsOf u) = withUnitsResult u (exec i s) ∧
    ∀ t, exec i s = .next t → t.withUnitsOf s = t

/-- R303. Every command writes to STATUS only OK or one of the codes its row of the table names. -/
def Obligations.StatusCodesOfEachCommand : Prop :=
  ∀ (i : Instr) (s t : State), exec i s = .next t → t.status = .ok ∨ t.status ∈ i.failureCodes

/-- R304. What a failing command leaves, by kind; no failing command writes a unit register. -/
def Obligations.FailingCommandsMakeOnlyTheirFailureWrites : Prop :=
  (∀ (i : Instr) (s t : State), exec i s = .next t → t.status ≠ .ok →
    t.withUnitsOf s = t ∧
    (i ∈ [Instr.stfSeq, .unsSeq, .fcsApp, .fcsVal, .hdrHdr, .hdrSer] →
      t = { s with obits := [], status := t.status }) ∧
    ((i = .csDec ∨ ∃ c, i = .csEnc c) → t = { s with csOut := Addr.zero, status := t.status }) ∧
    (i = .hdrFcsf → t = { s with status := t.status }) ∧
    (i = .hdrDes → ∃ f, t = { s with rx := Rx.sentinel t.status f, status := t.status })) ∧
  (∀ (s t : State) (cw : Word), illegalWord cw → issue cw s = .next t → t = { s with status := .illegalCommand })

/-- No command reads STATUS, so no command behaves differently because of the code an earlier error left there (R300), and every
command writes it (R26). -/
def Obligations.EarlierStatusNeverMatters : Prop :=
  ∀ (i : Instr) (s : State) (e : Status), exec i { s with status := e } = exec i s

/-- A whole-sequence command and an incremental command may be issued in either order: the two final states differ in STATUS at
most (R334). -/
def Obligations.WholeSequenceCommandsInterleaveFreely : Prop :=
  ∀ (w u : Instr) (s : State), w.wholeSequence = true → u.incremental = true →
    ∃ t t', runCommands [w, u] s = .next t ∧ runCommands [u, w] s = .next t' ∧ t = { t' with status := t.status }

/-! ## Reset, registers and ports -/

/-- A reset that the host asserts puts the machine, from any state, into the reset state of its capacities (R330); that it is a
host action of its own, and that the actions to come and what the host has read stay, is the model's choice (logs 2 and 9). -/
def Obligations.AssertedResetRestoresResetState : Prop :=
  ∀ (s : State) (rest : List HostAct), s.host = .powerOnReset :: rest →
    step s = .next { State.resetWith s.cfg with host := rest, reply := s.reply }

/-- R330. The value of every piece of state after power-on reset. -/
def Obligations.PowerOnResetValues : Prop :=
  ∀ p : Params, (State.resetWith p).stfCnt = 0 ∧ (State.resetWith p).unsCnt = 0 ∧
    (State.resetWith p).unsSkip = false ∧ (State.resetWith p).fcsCrc = 0xFFFF ∧
    (State.resetWith p).bres = ⟨0, false, false⟩ ∧ (State.resetWith p).status = .ok ∧
    (State.resetWith p).ibits = [] ∧ (State.resetWith p).obits = [] ∧ (State.resetWith p).csIn = [] ∧
    (State.resetWith p).csOut.toList = List.replicate 7 0 ∧
    (State.resetWith p).fd
      = ⟨[], [], Vector.replicate 8 [], 0, 0x03, 0xF0, [], 0x0000⟩ ∧
    (State.resetWith p).rx
      = ⟨false, .ok, .notChecked, Addr.zero, Addr.zero, 0, Vector.replicate 8 Addr.zero, 0x00, 0x00, [], 0x0000⟩ ∧
    regRead 0x05 (State.resetWith p) = 0x0000

/-- R24 and R27. Every field of every readable register of the host's map, and 0 from CMD, the reserved bits and the reserved
numbers. -/
def Obligations.RegisterMapReads : Prop :=
  ∀ s : State,
    regRead 0x00 s = 0 ∧
    ((regRead 0x01 s).extractLsb' 0 4 = s.status.code ∧ regRead 0x01 s &&& 0xFFF0 = 0) ∧
    ((regRead 0x02 s).extractLsb' 0 3 = s.stfCnt ∧ regRead 0x02 s &&& 0xFFF8 = 0) ∧
    ((regRead 0x03 s).extractLsb' 0 3 = s.unsCnt ∧ (regRead 0x03 s).getLsbD 3 = s.unsSkip ∧
      regRead 0x03 s &&& 0xFFF0 = 0) ∧
    regRead 0x04 s = s.fcsCrc ∧
    regRead 0x05 s = 0xFFFF - regRead 0x04 s ∧
    ((regRead 0x06 s).extractLsb' 0 2 = s.bres.n ∧ (regRead 0x06 s).getLsbD 2 = s.bres.b0 ∧
      (regRead 0x06 s).getLsbD 3 = s.bres.b1 ∧ regRead 0x06 s &&& 0xFFF0 = 0) ∧
    ((regRead 0x07 s).extractLsb' 0 8 = s.fd.ctrl ∧ regRead 0x07 s &&& 0xFF00 = 0) ∧
    ((regRead 0x08 s).extractLsb' 0 8 = s.fd.pid ∧ regRead 0x08 s &&& 0xFF00 = 0) ∧
    ((regRead 0x09 s).extractLsb' 0 4 = s.fd.ndigi ∧ regRead 0x09 s &&& 0xFFF0 = 0) ∧
    regRead 0x0A s = s.fd.fcs ∧
    ((regRead 0x0B s).getLsbD 0 = s.rx.valid ∧ (regRead 0x0B s).extractLsb' 1 4 = s.rx.reason.code ∧
      (regRead 0x0B s).extractLsb' 5 2 = s.rx.fcsSt.code ∧ (regRead 0x0B s).extractLsb' 8 4 = s.rx.ndigi ∧
      regRead 0x0B s &&& 0xF080 = 0) ∧
    ((regRead 0x0C s).extractLsb' 0 8 = s.rx.ctrl ∧ (regRead 0x0C s).extractLsb' 8 8 = s.rx.pid) ∧
    regRead 0x0D s = s.rx.fcs ∧
    ∀ n : Byte, 0x0E ≤ n.toNat → regRead n s = 0

/-- A host write to a register other than CMD writes only the named fields of the read/write registers 0x04, 0x07, 0x08 and
0x09, ignores the reserved bits of the value, and is ignored for every other number (R27, R28). -/
def Obligations.RegisterWritesOnlyNamedFields : Prop :=
  ∀ (s : State) (n : Byte) (v : Word) (rest : List HostAct), s.host = .writeReg n v :: rest → n ≠ 0x00 →
    (n = 0x04 → step s = .next { s with host := rest, fcsCrc := v }) ∧
    (n = 0x07 → step s = .next { s with host := rest, fd := { s.fd with ctrl := v.setWidth 8 } }) ∧
    (n = 0x08 → step s = .next { s with host := rest, fd := { s.fd with pid := v.setWidth 8 } }) ∧
    (n = 0x09 → step s = .next { s with host := rest, fd := { s.fd with ndigi := v.setWidth 4 } }) ∧
    (n ∉ [(0x04 : Byte), 0x07, 0x08, 0x09] → step s = .next { s with host := rest })

/-- A host read of a register or port returns its current content and has no side effect on the core (R28, R52, R60); what is
there is said of registers by RegisterMapReads and of all 23 names of the port space here (R30 to R32, R50). The model records
the value in its own field `reply` (log 3), and a scalar field read by name is a number (log 6). -/
def Obligations.HostReadsHaveNoSideEffect : Prop :=
  (∀ (s : State) (n : Byte) (rest : List HostAct), s.host = .readReg n :: rest →
    step s = .next { s with host := rest, reply := some (.word (regRead n s)) }) ∧
  (∀ (s : State) (p : PortName) (rest : List HostAct), s.host = .readPort p :: rest →
    step s = .next { s with host := rest, reply := some (portRead p s) }) ∧
  (∀ s : State, portRead .ibits s = .bits s.ibits ∧ portRead .obits s = .bits s.obits ∧
    portRead .csIn s = .bytes s.csIn ∧ portRead .csOut s = .bytes s.csOut.toList ∧
    portRead .fdDestTxt s = .bytes s.fd.destTxt ∧ portRead .fdSrcTxt s = .bytes s.fd.srcTxt ∧
    (∀ i : Fin 8, portRead (.fdDigiTxt i) s = .bytes s.fd.digiTxt[i]) ∧
    portRead .fdNdigi s = .word (s.fd.ndigi.setWidth 16) ∧ portRead .fdCtrl s = .word (s.fd.ctrl.setWidth 16) ∧
    portRead .fdPid s = .word (s.fd.pid.setWidth 16) ∧ portRead .fdInfo s = .bytes s.fd.info ∧
    portRead .fdFcs s = .word s.fd.fcs ∧
    portRead .rxValid s = .word (if s.rx.valid then 1 else 0) ∧
    portRead .rxReason s = .word (s.rx.reason.code.setWidth 16) ∧
    portRead .rxFcsSt s = .word (s.rx.fcsSt.code.setWidth 16) ∧
    portRead .rxDest s = .bytes s.rx.dest.toList ∧ portRead .rxSrc s = .bytes s.rx.src.toList ∧
    portRead .rxNdigi s = .word (s.rx.ndigi.setWidth 16) ∧
    (∀ i : Fin 8, portRead (.rxDigi i) s = .bytes s.rx.digi[i].toList) ∧
    portRead .rxCtrl s = .word (s.rx.ctrl.setWidth 16) ∧ portRead .rxPid s = .word (s.rx.pid.setWidth 16) ∧
    portRead .rxInfo s = .bytes s.rx.info ∧ portRead .rxFcs s = .word s.rx.fcs)

/-- A host write of a port within its capacity replaces the port's value and nothing else (R52, R60), the scalar fields of FD
included (log 6); a longer write stops the machine (the fault is the model's form of R52's "no such move", log 4). -/
def Obligations.HostPortWritesReplaceWholeValue : Prop :=
  ∀ (s : State) (rest : List HostAct),
    (∀ v, s.host = .writePort (.ibits v) :: rest → v.length ≤ s.cfg.ibitsMax →
      step s = .next { s with host := rest, ibits := v }) ∧
    (∀ v, s.host = .writePort (.csIn v) :: rest → v.length ≤ s.cfg.txtMax →
      step s = .next { s with host := rest, csIn := v }) ∧
    (∀ v, s.host = .writePort (.fdDestTxt v) :: rest → v.length ≤ s.cfg.txtMax →
      step s = .next { s with host := rest, fd := { s.fd with destTxt := v } }) ∧
    (∀ v, s.host = .writePort (.fdSrcTxt v) :: rest → v.length ≤ s.cfg.txtMax →
      step s = .next { s with host := rest, fd := { s.fd with srcTxt := v } }) ∧
    (∀ v, s.host = .writePort (.fdInfo v) :: rest → v.length ≤ s.cfg.maxInfoBytes →
      step s = .next { s with host := rest, fd := { s.fd with info := v } }) ∧
    (∀ (i : Fin 8) v, s.host = .writePort (.fdDigiTxt i v) :: rest → v.length ≤ s.cfg.txtMax →
      ∃ D : Vector Bytes 8, step s = .next { s with host := rest, fd := { s.fd with digiTxt := D } } ∧
        D[i] = v ∧ ∀ k : Fin 8, k ≠ i → D[k] = s.fd.digiTxt[k]) ∧
    (∀ v, s.host = .writePort (.fdNdigi v) :: rest → step s = .next { s with host := rest, fd := { s.fd with ndigi := v } }) ∧
    (∀ v, s.host = .writePort (.fdCtrl v) :: rest → step s = .next { s with host := rest, fd := { s.fd with ctrl := v } }) ∧
    (∀ v, s.host = .writePort (.fdPid v) :: rest → step s = .next { s with host := rest, fd := { s.fd with pid := v } }) ∧
    (∀ v, s.host = .writePort (.ibits v) :: rest → s.cfg.ibitsMax < v.length → step s = .fault .portWriteTooLong) ∧
    (∀ v, s.cfg.txtMax < v.length → (s.host = .writePort (.csIn v) :: rest ∨ s.host = .writePort (.fdDestTxt v) :: rest ∨
      s.host = .writePort (.fdSrcTxt v) :: rest ∨ ∃ i, s.host = .writePort (.fdDigiTxt i v) :: rest) →
      step s = .fault .portWriteTooLong) ∧
    (∀ v, s.host = .writePort (.fdInfo v) :: rest → s.cfg.maxInfoBytes < v.length →
      step s = .fault .portWriteTooLong)

/-- R147. A host that reads FCS_CRC, issues any other commands (another stream's among them), and writes the value back resumes its own stream: the
accumulator ends as if the two parts had been folded in one run. -/
def Obligations.SavedAccumulatorResumesItsStream : Prop :=
  ∀ (s a m z : State) (B C : Bytes) (other : List Instr),
    runCommands (.fcsInit :: Pseudo.expand (.fcsBytes B)) s = .next a →
    runCommands other a = .next m →
    runCommands (Pseudo.expand (.fcsBytes C)) (regWrite 0x04 (regRead 0x04 a) m) = .next z →
    z.fcsCrc = crcBytes (B ++ C)

/-! ## Invariant -/

/-- The invariant holds after power-on reset, for all capacities within their bounds, and of the model's own reset state
(R21, R22, R330; the capacities of the latter are the model's choice, log 1). -/
def Obligations.ResetMeetsInvariant : Prop :=
  (∀ p : Params, p.ok → (State.resetWith p).Inv) ∧ State.reset.Inv

/-- Every step keeps the invariant: the counters stay in 0..4, a pending skip has count 0, every port stays within its capacity,
and RX is a decoded UI frame or the whole sentinel (R21, R22, R25, R30 to R32, R230, I8). -/
def Obligations.EveryStepKeepsInvariant : Prop :=
  ∀ s t : State, s.Inv → step s = .next t → t.Inv

/-! ## Laws of the functions, and round trips through the commands -/

/-- R100. `stuff` by blocks: a 0 after every five 1s, also at the end of the input, and nowhere else. -/
def Obligations.StuffInsertsZeroAfterFiveOnes : Prop :=
  (∀ s : Bits, stuff (List.replicate 5 true ++ s) = List.replicate 5 true ++ false :: stuff s) ∧
  (∀ (k : Nat) (s : Bits), k < 5 →
    stuff (List.replicate k true ++ false :: s) = List.replicate k true ++ false :: stuff s) ∧
  (∀ k : Nat, k < 5 → stuff (List.replicate k true) = List.replicate k true)

/-- R120. `unstuff` by blocks: the bit after every five 1s is discarded, whatever it is, and no other; a skip pending at the end
discards nothing. -/
def Obligations.UnstuffDropsBitAfterFiveOnes : Prop :=
  (∀ (x : Bool) (s : Bits), unstuff (List.replicate 5 true ++ x :: s) = List.replicate 5 true ++ unstuff s) ∧
  (∀ (k : Nat) (s : Bits), k < 5 →
    unstuff (List.replicate k true ++ false :: s) = List.replicate k true ++ false :: unstuff s) ∧
  (∀ k : Nat, k ≤ 5 → unstuff (List.replicate k true) = List.replicate k true)

/-- A stuffed sequence has no run of six 1s, and so nowhere the flag pattern (R104 item 2). -/
def Obligations.StuffedHasNoSixOnes : Prop :=
  ∀ s : Bits, ¬ (List.replicate 6 true <:+: stuff s) ∧ noFlag (stuff s) 0

/-- A sequence with no run of five 1s is stuffed and unstuffed to itself (R104 item 1, R124 item 2). -/
def Obligations.ShortRunsPassUnchanged : Prop :=
  ∀ s : Bits, ¬ (List.replicate 5 true <:+: s) → stuff s = s ∧ unstuff s = s

/-- The lengths of stuffed and unstuffed sequences (R104 item 3, R124 item 3). -/
def Obligations.StuffAndUnstuffLengthBounds : Prop :=
  ∀ s : Bits, s.length ≤ (stuff s).length ∧ (stuff s).length ≤ s.length + s.length / 5 ∧
    (unstuff s).length ≤ s.length

/-- Stuffing goes on from the count the first part leaves, and starts afresh when that is 0 (R104 item 4). -/
def Obligations.StuffingContinuesFromCount : Prop :=
  ∀ s t : Bits, stuff (s ++ t) = stuff s ++ stuffFrom (stuffCount 0 s) t ∧
    (stuffCount 0 s = 0 → stuff (s ++ t) = stuff s ++ stuff t) ∧
    (∀ s' : Bits, s = s' ++ [false] → stuffCount 0 s = 0)

/-- STF.SEQ, its OBITS written back to IBITS, then UNS.SEQ: OBITS is the original IBITS (R104 item 5, R124 item 1). -/
def Obligations.UnsSeqInvertsStfSeq : Prop :=
  ∀ s t : State, exec .stfSeq s = .next t → t.status = .ok →
    ∃ z, exec .unsSeq { t with ibits := t.obits } = .next z ∧ z.obits = s.ibits ∧ z.status = .ok

/-- FCS.APP, its OBITS written back to IBITS, then FCS.VAL: OBITS is the original IBITS and STATUS is OK (R150 item 1). -/
def Obligations.FcsValAcceptsFcsApp : Prop :=
  ∀ s t : State, exec .fcsApp s = .next t → t.status = .ok →
    ∃ z, exec .fcsVal { t with ibits := t.obits } = .next z ∧ z.obits = s.ibits ∧ z.status = .ok

/-- Flipping any one bit of what FCS.APP left makes FCS.VAL fail with CHECKSUM_MISMATCH and empty OBITS (R150 item 2; that it
holds of every input is a property of the CRC which the spec takes from general knowledge and the model must bear out). -/
def Obligations.SingleBitFlipIsDetected : Prop :=
  ∀ (s t : State) (k : Nat), exec .fcsApp s = .next t → t.status = .ok → k < t.obits.length →
    exec .fcsVal { t with ibits := t.obits.set k (!t.obits.getD k false) }
      = .next { t with ibits := t.obits.set k (!t.obits.getD k false), obits := [], status := .checksumMismatch }

/-- The residue of a sequence with its digest appended is 0xF0B8 (R150 item 3; for every input from general knowledge). -/
def Obligations.AppendedDigestLeavesResidue : Prop :=
  ∀ s : Bits, crcBits (fcsAppend s) = 0xF0B8

/-- CS.ENC, its CS_OUT written to CS_IN, then CS.DEC: the base padded with spaces to six characters, and the SSID, for a base of
1 to 6 seven-bit bytes without '-' or lower case (R175 item 1), given as the command's operand or as a suffix. -/
def Obligations.CsDecInvertsCsEnc : Prop :=
  ∀ (s : State) (base : Bytes) (c d : Byte), 1 ≤ base.length → base.length ≤ 6 →
    (∀ b ∈ base, b.toNat ≤ 0x7F ∧ b ≠ 0x2D ∧ ¬ (0x61 ≤ b.toNat ∧ b.toNat ≤ 0x7A)) → c.toNat ≤ 0x7F → d.toNat ≤ 0x7F →
    (∃ t z, exec (.csEnc c) { s with csIn := base } = .next t ∧
      exec .csDec { t with csIn := t.csOut.toList } = .next z ∧ z.status = .ok ∧
      z.csOut.toList = base ++ List.replicate (6 - base.length) 0x20 ++ [c]) ∧
    (c ≠ 0x2D → ¬ (0x61 ≤ c.toNat ∧ c.toNat ≤ 0x7A) →
      ∃ t z, exec (.csEnc d) { s with csIn := base ++ [0x2D, c] } = .next t ∧
        exec .csDec { t with csIn := t.csOut.toList } = .next z ∧ z.status = .ok ∧
        z.csOut.toList = base ++ List.replicate (6 - base.length) 0x20 ++ [c])

/-- Bit 0 of every byte that CS.ENC leaves in CS_OUT is 0 (R175 item 3). -/
def Obligations.EncodedBytesHaveLowBitZero : Prop :=
  ∀ (s t : State) (c : Byte), exec (.csEnc c) s = .next t → ∀ j : Fin 7, t.csOut[j].getLsbD 0 = false

/-- What HDR.SER emits holds the flag pattern exactly at its two ends (R210 items 1 and 2). -/
def Obligations.SerializedFrameHasExactlyTwoFlags : Prop :=
  ∀ s t : State, exec .hdrSer s = .next t → t.status = .ok →
    16 ≤ t.obits.length ∧ ∀ k : Nat, flagAt t.obits k ↔ k = 0 ∨ k = t.obits.length - 8

/-- HDR.SER and HDR.HDR cannot fail with CAPACITY in a state within its capacities, and HDR.SER emits at most WIRE_MAX bits
(R205, R208). -/
def Obligations.SerializerFitsWireMax : Prop :=
  ∀ s t : State, s.cfg.ok → s.fd.info.length ≤ s.cfg.maxInfoBytes →
    (exec .hdrSer s = .next t → t.status ≠ .capacity ∧ (t.status = .ok → t.obits.length ≤ s.cfg.wireMax)) ∧
    (exec .hdrHdr s = .next t → t.status ≠ .capacity)

/-- HDR.SER of a UI frame, its OBITS written to IBITS, then HDR.DES: the frame is recovered (R210 item 3). -/
def Obligations.HdrDesRecoversSerializedUiFrame : Prop :=
  ∀ s t : State, s.fd.ctrl = 0x03 → s.fd.pid = 0xF0 → s.fd.info.length ≤ s.cfg.maxInfoBytes →
    exec .hdrSer s = .next t → t.status = .ok →
    ∃ z, exec .hdrDes { t with ibits := t.obits } = .next z ∧ z.status = .ok ∧ z.rx.valid = true ∧
      (encodeCallsign s.fd.destTxt 0x30).map decodeAddr = some z.rx.dest ∧
      (encodeCallsign s.fd.srcTxt 0x30).map decodeAddr = some z.rx.src ∧ z.rx.ndigi = s.fd.ndigi ∧
      (∀ i : Fin 8, i.val < s.fd.ndigi.toNat →
        (encodeCallsign s.fd.digiTxt[i] 0x30).map decodeAddr = some z.rx.digi[i]) ∧
      z.rx.info = s.fd.info ∧ z.rx.fcs = t.fd.fcs ∧ z.rx.fcsSt = .fcsOk

/-- Two frame descriptors whose info fields differ in exactly one byte get different frame FCS values from HDR.FCSF (R243
item 3; that a change confined to one byte is always detected the spec takes from general knowledge). -/
def Obligations.OneInfoByteChangesFrameFcs : Prop :=
  ∀ (s t t' : State) (A C : Bytes) (x y : Byte), x ≠ y →
    exec .hdrFcsf { s with fd := { s.fd with info := A ++ x :: C } } = .next t → t.status = .ok →
    exec .hdrFcsf { s with fd := { s.fd with info := A ++ y :: C } } = .next t' → t'.status = .ok →
    t.fd.fcs ≠ t'.fd.fcs
end

