-- ==== Sys2Proof/Laws/Callsign.lean ====
section
/-! SUPPORT. What the callsign coder's functions do to each byte. -/

namespace Sys2Proof.Machine

open Sys2Proof

@[simp] theorem decodeAddr_getElem (A : Addr) (i : Nat) (h : i < 7) : (decodeAddr A)[i] = A[i] >>> 1 := by
  simp [decodeAddr]

@[simp] theorem Addr.zero_getElem (i : Nat) (h : i < 7) : Addr.zero[i] = 0 := by
  simp [Addr.zero]

/-- Every decoded byte is a 7-bit code (R172). -/
theorem decodeAddr_ascii (A : Addr) (i : Nat) (h : i < 7) : (decodeAddr A)[i].toNat ≤ 0x7F := by
  rw [decodeAddr_getElem]
  have := A[i].isLt
  simp [Nat.shiftRight_eq_div_pow]
  omega

theorem decodeAddr_toList (A : Addr) : (decodeAddr A).toList = A.toList.map fun b : Byte => b >>> 1 := by
  apply List.ext_getElem
  · simp
  · intro i h1 h2
    simp at h1
    simp [decodeAddr]

/-- Everything an accepted base and SSID can be (R170). -/
theorem rawAddress_eq_some {base ssid raw : Bytes} : rawAddress base ssid = some raw ↔
    ∃ x, ssid = [x] ∧ 1 ≤ base.length ∧ base.length ≤ 6 ∧ raw = base ++ List.replicate (6 - base.length) 0x20 ++ [x] := by
  unfold rawAddress
  rw [csLen, asciiSpace]
  by_cases h1 : ssid.length = 1
  · obtain ⟨x, rfl⟩ := List.length_eq_one_iff.1 h1
    by_cases h6 : 6 < base.length
    · have : ¬ base.length ≤ 6 := by omega
      simp [h6, this]
    · by_cases h0 : base.length = 0
      · have : ¬ 1 ≤ base.length := by omega
        simp [h0]
      · have h1' : 1 ≤ base.length := by omega
        have h6' : base.length ≤ 6 := by omega
        simp only [List.length_singleton, ne_eq, not_true_eq_false, if_false, h6, h0, Option.some.injEq]
        constructor
        · rintro rfl; exact ⟨x, rfl, h1', h6', rfl⟩
        · rintro ⟨y, hy, -, -, rfl⟩; rw [hy]
  · have hx : ∀ x, ssid ≠ [x] := fun x hx => h1 (by simp [hx])
    simp [h1, hx]

theorem rawAddress_length {base ssid raw : Bytes} (h : rawAddress base ssid = some raw) : raw.length = 7 := by
  obtain ⟨x, rfl, h1, h6, rfl⟩ := rawAddress_eq_some.1 h
  simp; omega

theorem shiftLeft7_toList {raw : Bytes} (h : raw.length = 7) :
    (shiftLeft7 raw).toList = raw.map fun b : Byte => b <<< 1 := by
  apply List.ext_getElem
  · simp [h]
  · intro i h1 h2
    simp at h1 h2
    simp [shiftLeft7, h2]

/-- Bit 0 of every byte of an encoded address is 0 (R170). -/
theorem shiftLeft7_low (raw : Bytes) (i : Nat) (h : i < 7) : (shiftLeft7 raw)[i].getLsbD 0 = false := by
  simp [shiftLeft7]

/-- An encoded address is a shifted 7-byte raw address. -/
theorem encodeCallsign_eq_some {T : Bytes} {d : Byte} {r : Addr} (h : encodeCallsign T d = some r) :
    ∃ base ssid raw, splitSsid (T.map upperByte) d = some (base, ssid) ∧ rawAddress base ssid = some raw ∧
      r = shiftLeft7 raw := by
  unfold encodeCallsign at h
  split at h
  · split at h
    · rename_i base ssid hs
      obtain ⟨raw, hr, rfl⟩ := Option.map_eq_some_iff.1 h
      exact ⟨base, ssid, raw, hs, hr, rfl⟩
    · simp at h
  · simp at h

end Sys2Proof.Machine
end

