-- ==== Sys2Proof/Laws/Fcs.lean ====
section
/-! SUPPORT. The FCS functions as folds, and that a step of the accumulator loses nothing. -/

namespace Sys2Proof.Machine

open Sys2Proof

theorem crcBits_append (s t : Bits) : crcBits (s ++ t) = t.foldl updateBit (crcBits s) := by
  simp [crcBits]

@[simp] theorem update_nil (st : Word) : update st [] = st := rfl

@[simp] theorem update_cons (st : Word) (v : Byte) (B : Bytes) : update st (v :: B) = update (updateByte st v) B := rfl

theorem update_append (st : Word) (A B : Bytes) : update st (A ++ B) = update (update st A) B := by
  simp [update]

theorem crcBytes_append (A B : Bytes) : crcBytes (A ++ B) = update (crcBytes A) B := update_append _ _ _

/-- Bit 15 after a step says whether the feedback was folded in. -/
theorem updateBit_getLsbD_15 (st : Word) (x : Bool) : (updateBit st x).getLsbD 15 = (st.getLsbD 0 != x) := by
  unfold updateBit
  cases h : (st.getLsbD 0 != x) <;> simp [crcPoly]

/-- For a fixed input bit, a step of the accumulator can be undone. -/
theorem updateBit_injective (x : Bool) : Function.Injective fun st => updateBit st x := by
  intro a b h
  have h15 : (a.getLsbD 0 != x) = (b.getLsbD 0 != x) := by
    rw [← updateBit_getLsbD_15, ← updateBit_getLsbD_15]; exact congrArg (fun v : Word => v.getLsbD 15) h
  have h0 : a.getLsbD 0 = b.getLsbD 0 := by
    cases x <;> revert h15 <;> cases a.getLsbD 0 <;> cases b.getLsbD 0 <;> simp
  have hs : a >>> 1 = b >>> 1 := by
    simp only [updateBit, h15] at h
    split at h
    · exact (BitVec.xor_left_inj crcPoly).1 h
    · exact h
  apply BitVec.eq_of_getLsbD_eq
  intro i hi
  cases i with
  | zero => exact h0
  | succ i =>
    have := congrArg (fun v : Word => v.getLsbD i) hs
    simpa [BitVec.getLsbD_ushiftRight, Nat.add_comm] using this

/-- Different input bits give different states. -/
theorem updateBit_ne (st : Word) (x : Bool) : updateBit st x ≠ updateBit st (!x) := by
  intro h
  have := congrArg (fun v : Word => v.getLsbD 15) h
  simp only [updateBit_getLsbD_15] at this
  revert this
  cases st.getLsbD 0 <;> cases x <;> simp

theorem foldl_updateBit_injective (s : Bits) : Function.Injective fun st => s.foldl updateBit st := by
  induction s with
  | nil => exact fun _ _ h => h
  | cons x s ih => exact fun a b h => updateBit_injective x (ih h)

theorem updateByte_injective (v : Byte) : Function.Injective fun st => updateByte st v :=
  foldl_updateBit_injective (msbBits v)

theorem update_injective (B : Bytes) : Function.Injective fun st => update st B := by
  induction B with
  | nil => exact fun _ _ h => h
  | cons v B ih => exact fun a b h => updateByte_injective v (ih h)

theorem digest_injective : Function.Injective digest := fun a b h => by
  have := congrArg (fun v : Word => ~~~v) h
  simpa [digest] using this

end Sys2Proof.Machine
end

