-- ==== Sys2Proof/Laws/Operands.lean ====
section
/-! SUPPORT. The conversions of R13 undo each other, and their lengths. -/

namespace Sys2Proof.Machine

open Sys2Proof

@[simp] theorem lsbBits_length (v : Byte) : (lsbBits v).length = 8 := rfl

@[simp] theorem bitsOf_nil : bitsOf [] = [] := rfl

@[simp] theorem bitsOf_cons (v : Byte) (B : Bytes) : bitsOf (v :: B) = lsbBits v ++ bitsOf B := rfl

theorem bitsOf_append (A B : Bytes) : bitsOf (A ++ B) = bitsOf A ++ bitsOf B := by
  simp [bitsOf, List.flatMap_append]

@[simp] theorem bitsOf_length (B : Bytes) : (bitsOf B).length = 8 * B.length := by
  induction B with
  | nil => rfl
  | cons v B ih => simp [ih]; omega

/-- The eight bits of a byte sum to it. -/
theorem natOfBits_lsbBits (v : Byte) : natOfBits (lsbBits v) = v.toNat := by
  revert v; decide

theorem bytesOf_lsbBits_append (v : Byte) (s : Bits) : bytesOf (lsbBits v ++ s) = v :: bytesOf s := by
  have h := natOfBits_lsbBits v
  rw [lsbBits] at h
  simp only [lsbBits, List.cons_append, List.nil_append, bytesOf]
  rw [h, BitVec.ofNat_toNat, BitVec.setWidth_eq]

/-- `bytes_of(bits_of(B)) = B` (R13). -/
@[simp] theorem bytesOf_bitsOf (B : Bytes) : bytesOf (bitsOf B) = B := by
  induction B with
  | nil => rfl
  | cons v B ih => rw [bitsOf_cons, bytesOf_lsbBits_append, ih]

theorem bitsOf_injective : Function.Injective bitsOf :=
  Function.LeftInverse.injective bytesOf_bitsOf

/-- A sequence of whole bytes is the bits of its bytes (R13). -/
theorem bitsOf_bytesOf (s : Bits) (h : s.length % 8 = 0) : bitsOf (bytesOf s) = s := by
  induction s using bytesOf.induct with
  | case1 b0 b1 b2 b3 b4 b5 b6 b7 s ih =>
    have h8 : s.length % 8 = 0 := by simp only [List.length_cons] at h; omega
    have hb : lsbBits (BitVec.ofNat 8 (natOfBits [b0, b1, b2, b3, b4, b5, b6, b7])) = [b0, b1, b2, b3, b4, b5, b6, b7] := by
      clear h h8 ih; revert b0 b1 b2 b3 b4 b5 b6 b7; decide
    rw [bytesOf, bitsOf_cons, hb, ih h8]; rfl
  | case2 s hs =>
    match s, hs with
    | [], _ => rfl
    | [_], _ | [_, _], _ | [_, _, _], _ | [_, _, _, _], _ | [_, _, _, _, _], _ | [_, _, _, _, _, _], _
    | [_, _, _, _, _, _, _], _ => simp at h
    | a :: b :: c :: d :: e :: f :: g :: i :: s, hs => exact absurd rfl (hs a b c d e f g i s)

@[simp] theorem bits16_length (v : Word) : (bits16 v).length = 16 := rfl

theorem natOfBits_append (s t : Bits) : natOfBits (s ++ t) = natOfBits s + 2 ^ s.length * natOfBits t := by
  induction s with
  | nil => simp [natOfBits]
  | cons b s ih => simp [natOfBits, ih, pow_succ]; ring

/-- `val16(bits16(v)) = v` (R13). -/
@[simp] theorem val16_bits16 (v : Word) : val16 (bits16 v) = v := by
  have h : bits16 v = lsbBits (lowByte v) ++ lsbBits (highByte v) := by simp [bits16, wordBytes]
  rw [val16, h, natOfBits_append, natOfBits_lsbBits, natOfBits_lsbBits, lsbBits_length]
  apply BitVec.eq_of_toNat_eq
  simp [lowByte, highByte, Nat.shiftRight_eq_div_pow]
  omega

theorem wordOfBytes_lowByte_highByte (v : Word) : wordOfBytes (lowByte v) (highByte v) = v := by
  apply BitVec.eq_of_getLsbD_eq
  intro i hi
  simp only [wordOfBytes, lowByte, highByte, BitVec.getLsbD_append, BitVec.getLsbD_extractLsb']
  by_cases h : i < 8
  · simp [h]
  · have h8 : 8 + (i - 8) = i := by omega
    have hlt : i - 8 < 8 := by omega
    simp [h, h8, hlt]

theorem lowByte_append (lo hi : Byte) : lowByte (hi ++ lo) = lo := by
  apply BitVec.eq_of_getLsbD_eq
  intro i h
  simp only [lowByte, BitVec.getLsbD_extractLsb', BitVec.getLsbD_append]
  simp [h]

theorem highByte_append (lo hi : Byte) : highByte (hi ++ lo) = hi := by
  apply BitVec.eq_of_getLsbD_eq
  intro i h
  simp only [highByte, BitVec.getLsbD_extractLsb', BitVec.getLsbD_append]
  simp [h]

theorem slice_zero {α : Type} (s : List α) (b : Nat) : slice s 0 b = s.take b := rfl

theorem slice_append {α : Type} (a b c : List α) : slice (a ++ b ++ c) a.length (a.length + b.length) = b := by
  simp [slice]

end Sys2Proof.Machine
end

