-- ==== Sys2Proof/Laws/Stuffer.lean ====
section
/-! SUPPORT. The stuffer's and unstuffer's steps and folds: counts stay in 0..4, and unstuffing a stuffed sequence from the
same count gives it back. -/

namespace Sys2Proof.Machine

open Sys2Proof

@[simp] theorem stuffStep_false (cnt : Nat) : stuffStep cnt false = (0, [false]) := by
  simp [stuffStep, stuffRun]

theorem stuffStep_true_of_lt {cnt : Nat} (h : cnt < 4) : stuffStep cnt true = (cnt + 1, [true]) := by
  have : cnt + 1 ≠ 5 := by omega
  simp [stuffStep, stuffRun, this]

@[simp] theorem stuffStep_four_true : stuffStep 4 true = (0, [true, false]) := rfl

/-- Everything one stuffing step can do from a count 0..4. -/
theorem stuffStep_cases {cnt : Nat} (h : cnt ≤ 4) (x : Bool) :
    (x = false ∧ stuffStep cnt x = (0, [false])) ∨
    (x = true ∧ cnt < 4 ∧ stuffStep cnt x = (cnt + 1, [true])) ∨
    (x = true ∧ cnt = 4 ∧ stuffStep cnt x = (0, [true, false])) := by
  cases x with
  | false => exact .inl ⟨rfl, stuffStep_false cnt⟩
  | true =>
    rcases Nat.lt_or_ge cnt 4 with h4 | h4
    · exact .inr (.inl ⟨rfl, h4, stuffStep_true_of_lt h4⟩)
    · obtain rfl : cnt = 4 := by omega
      exact .inr (.inr ⟨rfl, rfl, rfl⟩)

/-- The count stays in 0..4 (R21). -/
theorem stuffStep_count_le {cnt : Nat} (h : cnt ≤ 4) (x : Bool) : (stuffStep cnt x).1 ≤ 4 := by
  obtain ⟨-, e⟩ | ⟨-, h4, e⟩ | ⟨-, -, e⟩ := stuffStep_cases h x <;> rw [e] <;> simp
  omega

@[simp] theorem stuffFrom_nil (cnt : Nat) : stuffFrom cnt [] = [] := rfl

theorem stuffFrom_cons (cnt : Nat) (x : Bool) (s : Bits) :
    stuffFrom cnt (x :: s) = (stuffStep cnt x).2 ++ stuffFrom (stuffStep cnt x).1 s := rfl

theorem stuffFrom_append (cnt : Nat) (s t : Bits) :
    stuffFrom cnt (s ++ t) = stuffFrom cnt s ++ stuffFrom (stuffCount cnt s) t := by
  induction s generalizing cnt with
  | nil => rfl
  | cons x s ih => simp [stuffFrom_cons, stuffCount, ih]

theorem stuffCount_le {cnt : Nat} (h : cnt ≤ 4) (s : Bits) : stuffCount cnt s ≤ 4 := by
  induction s generalizing cnt with
  | nil => exact h
  | cons x s ih => exact ih (stuffStep_count_le h x)

/-- Everything one unstuffing step can do from a count 0..4. -/
theorem unstuffStep_cases {cnt : Nat} (h : cnt ≤ 4) (skip x : Bool) :
    (skip = true ∧ unstuffStep cnt skip x = ⟨cnt, false, []⟩) ∨
    (skip = false ∧ x = false ∧ unstuffStep cnt skip x = ⟨0, false, [false]⟩) ∨
    (skip = false ∧ x = true ∧ cnt < 4 ∧ unstuffStep cnt skip x = ⟨cnt + 1, false, [true]⟩) ∨
    (skip = false ∧ x = true ∧ cnt = 4 ∧ unstuffStep cnt skip x = ⟨0, true, [true]⟩) := by
  cases skip with
  | true => exact .inl ⟨rfl, rfl⟩
  | false =>
    cases x with
    | false => exact .inr (.inl ⟨rfl, rfl, by simp [unstuffStep, stuffRun]⟩)
    | true =>
      rcases Nat.lt_or_ge cnt 4 with h4 | h4
      · have : cnt + 1 ≠ 5 := by omega
        exact .inr (.inr (.inl ⟨rfl, rfl, h4, by simp [unstuffStep, stuffRun, this]⟩))
      · obtain rfl : cnt = 4 := by omega
        exact .inr (.inr (.inr ⟨rfl, rfl, rfl, rfl⟩))

/-- The count stays in 0..4, and a pending skip leaves count 0 (R22). -/
theorem unstuffStep_inv {cnt : Nat} {skip : Bool} (h : cnt ≤ 4) (x : Bool) :
    (unstuffStep cnt skip x).cnt ≤ 4 ∧
      ((unstuffStep cnt skip x).skip = true → (unstuffStep cnt skip x).cnt = 0) ∧
      (unstuffStep cnt skip x).out.length ≤ 1 := by
  obtain ⟨hs, e⟩ | ⟨-, -, e⟩ | ⟨-, -, h4, e⟩ | ⟨-, -, -, e⟩ := unstuffStep_cases h skip x <;> rw [e] <;> simp <;> omega

@[simp] theorem unstuffFrom_nil (cnt : Nat) (skip : Bool) : unstuffFrom cnt skip [] = [] := rfl

theorem unstuffFrom_cons (cnt : Nat) (skip x : Bool) (s : Bits) :
    unstuffFrom cnt skip (x :: s) = (unstuffStep cnt skip x).out
      ++ unstuffFrom (unstuffStep cnt skip x).cnt (unstuffStep cnt skip x).skip s := rfl

/-- The two counters agree bit for bit, and every skip falls on an inserted 0 (R124 item 1). -/
theorem unstuffFrom_stuffFrom {cnt : Nat} (h : cnt ≤ 4) (s : Bits) : unstuffFrom cnt false (stuffFrom cnt s) = s := by
  induction s generalizing cnt with
  | nil => rfl
  | cons x s ih =>
    obtain ⟨rfl, e⟩ | ⟨rfl, h4, e⟩ | ⟨rfl, rfl, e⟩ := stuffStep_cases h x
    · rw [stuffFrom_cons, e]
      simp [unstuffFrom_cons, unstuffStep, stuffRun, ih (Nat.zero_le 4)]
    · have : cnt + 1 ≠ 5 := by omega
      rw [stuffFrom_cons, e]
      simp [unstuffFrom_cons, unstuffStep, stuffRun, this, ih (show cnt + 1 ≤ 4 by omega)]
    · rw [stuffFrom_cons, e]
      simp [unstuffFrom_cons, unstuffStep, stuffRun, ih (Nat.zero_le 4)]

end Sys2Proof.Machine
end

