-- ==== Sys2Proof/Laws/Frame.lean ====
section
/-! SUPPORT. The searches of the deserializer find the least flag and the least marker, and the records a decode can end
with. -/

namespace Sys2Proof.Machine

open Sys2Proof

theorem flagBits_eq_pattern : flagBits = flagPattern := rfl

/-! ## Flag search -/

theorem flagAt_nil (i : Nat) : ¬ flagAt [] i := by simp [flagAt, flagPattern]

theorem flagAt_succ (x : Bool) (s : Bits) (i : Nat) : flagAt (x :: s) (i + 1) ↔ flagAt s i := by simp [flagAt]

theorem flagAt_drop (s : Bits) (a i : Nat) : flagAt (s.drop a) i ↔ flagAt s (a + i) := by
  simp [flagAt, List.drop_drop]

theorem flagAt_length {s : Bits} {i : Nat} (h : flagAt s i) : i + 8 ≤ s.length := by
  have := congrArg List.length h
  simp [flagPattern] at this
  omega

theorem findFlagIn_eq_some {s : Bits} {a i : Nat} :
    findFlagIn s a = some i ↔ ∃ k, i = a + k ∧ flagAt s k ∧ ∀ m, m < k → ¬ flagAt s m := by
  induction s generalizing a with
  | nil => simp [findFlagIn, flagAt_nil]
  | cons x s ih =>
    unfold findFlagIn
    by_cases h : (x :: s).take 8 = flagBits
    · have h0 : flagAt (x :: s) 0 := h
      rw [if_pos h]
      constructor
      · rintro ⟨⟩; exact ⟨0, rfl, h0, by simp⟩
      · rintro ⟨k, rfl, -, hmin⟩
        rcases Nat.eq_zero_or_pos k with rfl | hk
        · rfl
        · exact absurd h0 (hmin 0 hk)
    · have h0 : ¬ flagAt (x :: s) 0 := h
      rw [if_neg h, ih]
      constructor
      · rintro ⟨k, rfl, hk, hmin⟩
        refine ⟨k + 1, by omega, (flagAt_succ x s k).2 hk, fun m hm => ?_⟩
        cases m with
        | zero => exact h0
        | succ m => exact fun hf => hmin m (by omega) ((flagAt_succ x s m).1 hf)
      · rintro ⟨k, rfl, hk, hmin⟩
        cases k with
        | zero => exact absurd hk h0
        | succ k =>
          exact ⟨k, by omega, (flagAt_succ x s k).1 hk, fun m hm hf => hmin (m + 1) (by omega) ((flagAt_succ x s m).2 hf)⟩

theorem findFlagIn_eq_none {s : Bits} {a : Nat} : findFlagIn s a = none ↔ ∀ k, ¬ flagAt s k := by
  induction s generalizing a with
  | nil => simp [findFlagIn, flagAt_nil]
  | cons x s ih =>
    unfold findFlagIn
    by_cases h : (x :: s).take 8 = flagBits
    · rw [if_pos h]
      simp only [reduceCtorEq, false_iff, not_forall, not_not]
      exact ⟨0, h⟩
    · rw [if_neg h, ih]
      constructor
      · intro hk k
        cases k with
        | zero => exact h
        | succ k => exact fun hf => hk k ((flagAt_succ x s k).1 hf)
      · exact fun hk k hf => hk (k + 1) ((flagAt_succ x s k).2 hf)

/-- `find` answers the least flag from its start on (R231). -/
theorem findFlag_eq_some {s : Bits} {a i : Nat} : findFlag s a = some i ↔ firstFlag s a i := by
  unfold findFlag firstFlag
  rw [findFlagIn_eq_some]
  constructor
  · rintro ⟨k, rfl, hk, hmin⟩
    refine ⟨by omega, (flagAt_drop s a k).1 hk, fun m h1 h2 hf => hmin (m - a) (by omega) ((flagAt_drop s a _).2 ?_)⟩
    rwa [show a + (m - a) = m by omega]
  · rintro ⟨h1, hf, hmin⟩
    refine ⟨i - a, by omega, (flagAt_drop s a _).2 (by rwa [show a + (i - a) = i by omega]), fun m hm hf' => ?_⟩
    exact hmin (a + m) (by omega) (by omega) ((flagAt_drop s a m).1 hf')

/-- `find` answers none exactly when there is no flag from its start on (R231). -/
theorem findFlag_eq_none {s : Bits} {a : Nat} : findFlag s a = none ↔ noFlag s a := by
  unfold findFlag noFlag
  rw [findFlagIn_eq_none]
  constructor
  · exact fun h k hk hf => h (k - a) ((flagAt_drop s a _).2 (by rwa [show a + (k - a) = k by omega]))
  · exact fun h k hf => h (a + k) (by omega) ((flagAt_drop s a k).1 hf)

/-- A body is extracted exactly when there are two flags (R231, R232). -/
theorem extractBody_eq_ok {s u : Bits} : extractBody s = .ok u ↔ bodyBits s u := by
  unfold extractBody bodyBits
  constructor
  · intro h
    split at h
    · simp at h
    · rename_i s1 h1
      split at h
      · simp at h
      · rename_i s2 h2
        exact ⟨s1, s2, findFlag_eq_some.1 h1, findFlag_eq_some.1 h2, by simpa [slice, eq_comm] using h⟩
  · rintro ⟨s1, s2, h1, h2, rfl⟩
    simp [findFlag_eq_some.2 h1, findFlag_eq_some.2 h2, slice]

theorem extractBody_error {s : Bits} {E : Status} (h : extractBody s = .error E) :
    E = .frameNotFound ∧ (noFlag s 0 ∨ ∃ s1, firstFlag s 0 s1 ∧ noFlag s (s1 + 8)) := by
  unfold extractBody at h
  split at h
  · rename_i h1
    exact ⟨by simpa [eq_comm] using h, .inl (findFlag_eq_none.1 h1)⟩
  · rename_i s1 h1
    split at h
    · rename_i h2
      exact ⟨by simpa [eq_comm] using h, .inr ⟨s1, findFlag_eq_some.1 h1, findFlag_eq_none.1 h2⟩⟩
    · simp at h

/-! ## Marker scan -/

theorem markerAt_nil (k : Nat) : ¬ markerAt [] k := by simp [markerAt]

theorem markerAt_succ (a : Byte) (B : Bytes) (k : Nat) : markerAt (a :: B) (k + 1) ↔ markerAt B k := by simp [markerAt]

theorem markerAt_drop (B : Bytes) (a k : Nat) : markerAt (B.drop a) k ↔ markerAt B (a + k) := by
  simp [markerAt, Nat.add_assoc]

theorem findMarkerIn_eq_some {B : Bytes} {a j : Nat} :
    findMarkerIn B a = some j ↔ ∃ k, j = a + k ∧ markerAt B k ∧ ∀ m, m < k → ¬ markerAt B m := by
  induction B, a using findMarkerIn.induct with
  | case1 x y B k h =>
    have h0 : markerAt (x :: y :: B) 0 := by simp [markerAt, h.1, h.2, uiControl, uiPid]
    rw [findMarkerIn, if_pos h]
    constructor
    · rintro ⟨⟩; exact ⟨0, rfl, h0, by simp⟩
    · rintro ⟨m, rfl, -, hmin⟩
      rcases Nat.eq_zero_or_pos m with rfl | hm
      · rfl
      · exact absurd h0 (hmin 0 hm)
  | case2 x y B k h ih =>
    have h0 : ¬ markerAt (x :: y :: B) 0 := by simpa [markerAt, uiControl, uiPid] using h
    rw [findMarkerIn, if_neg h, ih]
    constructor
    · rintro ⟨m, rfl, hm, hmin⟩
      refine ⟨m + 1, by omega, (markerAt_succ x _ m).2 hm, fun p hp => ?_⟩
      cases p with
      | zero => exact h0
      | succ p => exact fun hf => hmin p (by omega) ((markerAt_succ x _ p).1 hf)
    · rintro ⟨m, rfl, hm, hmin⟩
      cases m with
      | zero => exact absurd hm h0
      | succ m =>
        exact ⟨m, by omega, (markerAt_succ x _ m).1 hm, fun p hp hf => hmin (p + 1) (by omega) ((markerAt_succ x _ p).2 hf)⟩
  | case3 x k => simp [findMarkerIn, markerAt, List.getElem?_cons]
  | case4 k => simp [findMarkerIn, markerAt_nil]

/-- The scan answers the least marker at byte offset 14 or later (R235). -/
theorem findMarker_eq_some {B : Bytes} {j : Nat} :
    findMarker B = some j ↔ 14 ≤ j ∧ markerAt B j ∧ ∀ k, 14 ≤ k → k < j → ¬ markerAt B k := by
  unfold findMarker
  rw [findMarkerIn_eq_some]
  constructor
  · rintro ⟨k, rfl, hk, hmin⟩
    refine ⟨by omega, (markerAt_drop B 14 k).1 hk, fun m h1 h2 hf => hmin (m - 14) (by omega) ((markerAt_drop B 14 _).2 ?_)⟩
    rwa [show 14 + (m - 14) = m by omega]
  · rintro ⟨h1, hf, hmin⟩
    refine ⟨j - 14, by omega, (markerAt_drop B 14 _).2 (by rwa [show 14 + (j - 14) = j by omega]), fun m hm hf' => ?_⟩
    exact hmin (14 + m) (by omega) (by omega) ((markerAt_drop B 14 m).1 hf')

theorem findMarker_eq_none {B : Bytes} : findMarker B = none ↔ ∀ k, 14 ≤ k → ¬ markerAt B k := by
  constructor
  · intro h k hk hf
    classical
    have hex : ∃ k, 14 ≤ k ∧ markerAt B k := ⟨k, hk, hf⟩
    have := findMarker_eq_some.2 ⟨(Nat.find_spec hex).1, (Nat.find_spec hex).2,
      fun m h1 h2 hm => Nat.find_min hex h2 ⟨h1, hm⟩⟩
    rw [h] at this
    exact absurd this (by simp)
  · intro h
    cases hj : findMarker B with
    | none => rfl
    | some j =>
      obtain ⟨h1, h2, -⟩ := findMarker_eq_some.1 hj
      exact absurd h2 (h j h1)

theorem markerAt_bytes {B : Bytes} {j : Nat} (h : markerAt B j) : byteAt B j = 0x03 ∧ byteAt B (j + 1) = 0xF0 := by
  simp [byteAt, List.getD_eq_getElem?_getD, h.1, h.2]

theorem markerAt_length {B : Bytes} {j : Nat} (h : markerAt B j) : j + 2 ≤ B.length := by
  have := (List.getElem?_eq_some_iff.1 h.2).1
  omega

/-! ## Bytes, words and addresses in a body -/

/-- The bits of a word on the wire are `bits16` (R13, R56). -/
theorem wireBits16_eq_bits16 (v : Word) : wireBits16 v = bits16 v := by
  simp [wireBits16, bits16, wordBytes, lsbBits, lowByte, highByte, List.range_succ]

/-- The 7 bytes that stand after `A`. -/
theorem addrAt_append (A B C : Bytes) (k : Nat) (hk : k = A.length) (h : B.length = 7) :
    (addrAt (A ++ B ++ C) k).toList = B := by
  subst hk
  apply List.ext_getElem
  · simp [h]
  · intro i h1 h2
    simp only [Vector.length_toList] at h1
    simp only [addrAt, Vector.getElem_toList, Vector.getElem_ofFn]
    rw [List.append_assoc, List.getD_append_right _ _ _ _ (by omega), Nat.add_sub_cancel_left,
      List.getD_append _ _ _ _ h2, List.getD_eq_getElem _ _ h2]

theorem bodyTrailer_append (front : Bytes) (lo hi : Byte) : bodyTrailer (front ++ [lo, hi]) = hi ++ lo := by
  simp [bodyTrailer, byteAt, wordOfBytes, List.getD_eq_getElem?_getD]

/-- The integrity check is the comparison of R234. -/
theorem integrity_of_is {B : Bytes} {f : FcsSt} (h : integrityIs B f) : integrity B = f := by
  obtain ⟨h, rfl⟩ | ⟨front, lo, hi, rfl, rfl⟩ := h
  · simp [integrity, h]
  · have hs : slice (front ++ [lo, hi]) 0 ((front ++ [lo, hi]).length - 2) = front := by simp [slice]
    have hl : ¬ (front ++ [lo, hi]).length < 2 := by simp
    rw [integrity, if_neg hl, hs, bodyTrailer_append]
    rfl

/-! ## The records a decode can end with -/

@[simp] theorem Rx.sentinel_valid (E : Status) (f : FcsSt) : (Rx.sentinel E f).valid = false := rfl
@[simp] theorem Rx.sentinel_reason (E : Status) (f : FcsSt) : (Rx.sentinel E f).reason = E := rfl
@[simp] theorem Rx.sentinel_fcsSt (E : Status) (f : FcsSt) : (Rx.sentinel E f).fcsSt = f := rfl
@[simp] theorem Rx.sentinel_info (E : Status) (f : FcsSt) : (Rx.sentinel E f).info = [] := rfl

/-- Everything the split of a body can answer (R235 to R237, R241). -/
theorem splitBody_cases (maxInfo : Nat) (B : Bytes) :
    (splitBody maxInfo B = .error .headerMarkerNotFound ∧ ∀ k, 14 ≤ k → ¬ markerAt B k) ∨
    ∃ j, 14 ≤ j ∧ markerAt B j ∧ (∀ k, 14 ≤ k → k < j → ¬ markerAt B k) ∧
      ((splitBody maxInfo B = .error .malformed ∧ (B.length < j + 4 ∨ (j - 14) % 7 ≠ 0 ∨ 14 + 7 * 8 < j)) ∨
       (j + 4 ≤ B.length ∧ (j - 14) % 7 = 0 ∧ j ≤ 14 + 7 * 8 ∧
        ((splitBody maxInfo B = .error .capacity ∧ maxInfo < B.length - (j + 4)) ∨
         (splitBody maxInfo B = .ok (Rx.decoded B j ((j - 14) / 7) (integrity B)) ∧ B.length - (j + 4) ≤ maxInfo)))) := by
  unfold splitBody
  cases hj : findMarker B with
  | none => exact .inl ⟨rfl, findMarker_eq_none.1 hj⟩
  | some j =>
    obtain ⟨h14, hm, hmin⟩ := findMarker_eq_some.1 hj
    refine .inr ⟨j, h14, hm, hmin, ?_⟩
    have hlen : (slice B (j + 2) (B.length - 2)).length = B.length - (j + 4) := by
      simp [slice]; omega
    simp only [hlen]
    split
    · exact .inl ⟨rfl, .inl ‹_›⟩
    · split
      · exact .inl ⟨rfl, .inr (.inl ‹_›)⟩
      · split
        · rename_i h
          simp only [maxDigis] at h
          exact .inl ⟨rfl, .inr (.inr (by omega))⟩
        · rename_i h1 h2 h3
          simp only [maxDigis] at h3
          refine .inr ⟨by omega, by omega, by omega, ?_⟩
          split
          · exact .inl ⟨rfl, ‹_›⟩
          · exact .inr ⟨rfl, by omega⟩

/-- Everything a decode can end with (R230, R240): the sentinel with the code of the failing stage, or the decoded frame. -/
theorem parse_cases (maxInfo : Nat) (s : Bits) :
    (parse maxInfo s = Rx.sentinel .frameNotFound .notChecked ∧
      (noFlag s 0 ∨ ∃ s1, firstFlag s 0 s1 ∧ noFlag s (s1 + 8))) ∨
    (∃ u, bodyBits s u ∧ u.length % 8 ≠ 0 ∧ parse maxInfo s = Rx.sentinel .malformed .notChecked) ∨
    (∃ B, bodyBits s (bitsOf B) ∧
      ((∃ E, splitBody maxInfo B = .error E ∧ parse maxInfo s = Rx.sentinel E (integrity B)) ∨
       ∃ r, splitBody maxInfo B = .ok r ∧ parse maxInfo s = r)) := by
  unfold parse
  cases hu : extractBody s with
  | error E =>
    obtain ⟨rfl, h⟩ := extractBody_error hu
    exact .inl ⟨rfl, h⟩
  | ok u =>
    have hb := extractBody_eq_ok.1 hu
    by_cases h8 : u.length % 8 = 0
    · refine .inr (.inr ⟨bytesOf u, by rwa [bitsOf_bytesOf u h8], ?_⟩)
      simp only [h8, ne_eq, not_true_eq_false, if_false]
      cases hs : splitBody maxInfo (bytesOf u) with
      | error E => exact .inl ⟨E, rfl, rfl⟩
      | ok r => exact .inr ⟨r, rfl, rfl⟩
    · exact .inr (.inl ⟨u, hb, h8, by simp [h8]⟩)

theorem parse_of_body {maxInfo : Nat} {s : Bits} {B : Bytes} (h : bodyBits s (bitsOf B)) :
    parse maxInfo s = match splitBody maxInfo B with
      | .error E => Rx.sentinel E (integrity B)
      | .ok r => r := by
  unfold parse
  rw [extractBody_eq_ok.2 h]
  have h8 : (bitsOf B).length % 8 = 0 := by simp
  simp only [h8, bytesOf_bitsOf]
  rfl

end Sys2Proof.Machine
end

