-- ==== Sys2Proof/Laws/State.lean ====
section
/-! SUPPORT. What each setter of Machine/Ops.lean does to each field of State, and the record update it is. -/

namespace Sys2Proof.Machine

open Sys2Proof

section
variable (s : State) (v : Status)
theorem State.setStatus_eq : s.setStatus v = { s with status := v } := rfl
@[simp] theorem State.setStatus_cfg : (s.setStatus v).cfg = s.cfg := rfl
@[simp] theorem State.setStatus_stfCnt : (s.setStatus v).stfCnt = s.stfCnt := rfl
@[simp] theorem State.setStatus_unsCnt : (s.setStatus v).unsCnt = s.unsCnt := rfl
@[simp] theorem State.setStatus_unsSkip : (s.setStatus v).unsSkip = s.unsSkip := rfl
@[simp] theorem State.setStatus_fcsCrc : (s.setStatus v).fcsCrc = s.fcsCrc := rfl
@[simp] theorem State.setStatus_bres : (s.setStatus v).bres = s.bres := rfl
@[simp] theorem State.setStatus_status : (s.setStatus v).status = v := rfl
@[simp] theorem State.setStatus_ibits : (s.setStatus v).ibits = s.ibits := rfl
@[simp] theorem State.setStatus_obits : (s.setStatus v).obits = s.obits := rfl
@[simp] theorem State.setStatus_csIn : (s.setStatus v).csIn = s.csIn := rfl
@[simp] theorem State.setStatus_csOut : (s.setStatus v).csOut = s.csOut := rfl
@[simp] theorem State.setStatus_fd : (s.setStatus v).fd = s.fd := rfl
@[simp] theorem State.setStatus_rx : (s.setStatus v).rx = s.rx := rfl
@[simp] theorem State.setStatus_host : (s.setStatus v).host = s.host := rfl
@[simp] theorem State.setStatus_reply : (s.setStatus v).reply = s.reply := rfl
end

section
variable (s : State) (v : BitVec 3)
theorem State.setStfCnt_eq : s.setStfCnt v = { s with stfCnt := v } := rfl
@[simp] theorem State.setStfCnt_cfg : (s.setStfCnt v).cfg = s.cfg := rfl
@[simp] theorem State.setStfCnt_stfCnt : (s.setStfCnt v).stfCnt = v := rfl
@[simp] theorem State.setStfCnt_unsCnt : (s.setStfCnt v).unsCnt = s.unsCnt := rfl
@[simp] theorem State.setStfCnt_unsSkip : (s.setStfCnt v).unsSkip = s.unsSkip := rfl
@[simp] theorem State.setStfCnt_fcsCrc : (s.setStfCnt v).fcsCrc = s.fcsCrc := rfl
@[simp] theorem State.setStfCnt_bres : (s.setStfCnt v).bres = s.bres := rfl
@[simp] theorem State.setStfCnt_status : (s.setStfCnt v).status = s.status := rfl
@[simp] theorem State.setStfCnt_ibits : (s.setStfCnt v).ibits = s.ibits := rfl
@[simp] theorem State.setStfCnt_obits : (s.setStfCnt v).obits = s.obits := rfl
@[simp] theorem State.setStfCnt_csIn : (s.setStfCnt v).csIn = s.csIn := rfl
@[simp] theorem State.setStfCnt_csOut : (s.setStfCnt v).csOut = s.csOut := rfl
@[simp] theorem State.setStfCnt_fd : (s.setStfCnt v).fd = s.fd := rfl
@[simp] theorem State.setStfCnt_rx : (s.setStfCnt v).rx = s.rx := rfl
@[simp] theorem State.setStfCnt_host : (s.setStfCnt v).host = s.host := rfl
@[simp] theorem State.setStfCnt_reply : (s.setStfCnt v).reply = s.reply := rfl
end

section
variable (s : State) (c : BitVec 3) (k : Bool)
theorem State.setUns_eq : s.setUns c k = { s with unsCnt := c, unsSkip := k } := rfl
@[simp] theorem State.setUns_cfg : (s.setUns c k).cfg = s.cfg := rfl
@[simp] theorem State.setUns_stfCnt : (s.setUns c k).stfCnt = s.stfCnt := rfl
@[simp] theorem State.setUns_unsCnt : (s.setUns c k).unsCnt = c := rfl
@[simp] theorem State.setUns_unsSkip : (s.setUns c k).unsSkip = k := rfl
@[simp] theorem State.setUns_fcsCrc : (s.setUns c k).fcsCrc = s.fcsCrc := rfl
@[simp] theorem State.setUns_bres : (s.setUns c k).bres = s.bres := rfl
@[simp] theorem State.setUns_status : (s.setUns c k).status = s.status := rfl
@[simp] theorem State.setUns_ibits : (s.setUns c k).ibits = s.ibits := rfl
@[simp] theorem State.setUns_obits : (s.setUns c k).obits = s.obits := rfl
@[simp] theorem State.setUns_csIn : (s.setUns c k).csIn = s.csIn := rfl
@[simp] theorem State.setUns_csOut : (s.setUns c k).csOut = s.csOut := rfl
@[simp] theorem State.setUns_fd : (s.setUns c k).fd = s.fd := rfl
@[simp] theorem State.setUns_rx : (s.setUns c k).rx = s.rx := rfl
@[simp] theorem State.setUns_host : (s.setUns c k).host = s.host := rfl
@[simp] theorem State.setUns_reply : (s.setUns c k).reply = s.reply := rfl
end

section
variable (s : State) (v : Word)
theorem State.setFcsCrc_eq : s.setFcsCrc v = { s with fcsCrc := v } := rfl
@[simp] theorem State.setFcsCrc_cfg : (s.setFcsCrc v).cfg = s.cfg := rfl
@[simp] theorem State.setFcsCrc_stfCnt : (s.setFcsCrc v).stfCnt = s.stfCnt := rfl
@[simp] theorem State.setFcsCrc_unsCnt : (s.setFcsCrc v).unsCnt = s.unsCnt := rfl
@[simp] theorem State.setFcsCrc_unsSkip : (s.setFcsCrc v).unsSkip = s.unsSkip := rfl
@[simp] theorem State.setFcsCrc_fcsCrc : (s.setFcsCrc v).fcsCrc = v := rfl
@[simp] theorem State.setFcsCrc_bres : (s.setFcsCrc v).bres = s.bres := rfl
@[simp] theorem State.setFcsCrc_status : (s.setFcsCrc v).status = s.status := rfl
@[simp] theorem State.setFcsCrc_ibits : (s.setFcsCrc v).ibits = s.ibits := rfl
@[simp] theorem State.setFcsCrc_obits : (s.setFcsCrc v).obits = s.obits := rfl
@[simp] theorem State.setFcsCrc_csIn : (s.setFcsCrc v).csIn = s.csIn := rfl
@[simp] theorem State.setFcsCrc_csOut : (s.setFcsCrc v).csOut = s.csOut := rfl
@[simp] theorem State.setFcsCrc_fd : (s.setFcsCrc v).fd = s.fd := rfl
@[simp] theorem State.setFcsCrc_rx : (s.setFcsCrc v).rx = s.rx := rfl
@[simp] theorem State.setFcsCrc_host : (s.setFcsCrc v).host = s.host := rfl
@[simp] theorem State.setFcsCrc_reply : (s.setFcsCrc v).reply = s.reply := rfl
end

section
variable (s : State) (v : Bres)
theorem State.setBres_eq : s.setBres v = { s with bres := v } := rfl
@[simp] theorem State.setBres_cfg : (s.setBres v).cfg = s.cfg := rfl
@[simp] theorem State.setBres_stfCnt : (s.setBres v).stfCnt = s.stfCnt := rfl
@[simp] theorem State.setBres_unsCnt : (s.setBres v).unsCnt = s.unsCnt := rfl
@[simp] theorem State.setBres_unsSkip : (s.setBres v).unsSkip = s.unsSkip := rfl
@[simp] theorem State.setBres_fcsCrc : (s.setBres v).fcsCrc = s.fcsCrc := rfl
@[simp] theorem State.setBres_bres : (s.setBres v).bres = v := rfl
@[simp] theorem State.setBres_status : (s.setBres v).status = s.status := rfl
@[simp] theorem State.setBres_ibits : (s.setBres v).ibits = s.ibits := rfl
@[simp] theorem State.setBres_obits : (s.setBres v).obits = s.obits := rfl
@[simp] theorem State.setBres_csIn : (s.setBres v).csIn = s.csIn := rfl
@[simp] theorem State.setBres_csOut : (s.setBres v).csOut = s.csOut := rfl
@[simp] theorem State.setBres_fd : (s.setBres v).fd = s.fd := rfl
@[simp] theorem State.setBres_rx : (s.setBres v).rx = s.rx := rfl
@[simp] theorem State.setBres_host : (s.setBres v).host = s.host := rfl
@[simp] theorem State.setBres_reply : (s.setBres v).reply = s.reply := rfl
end

section
variable (s : State) (v : Bits)
theorem State.setObits_eq : s.setObits v = { s with obits := v } := rfl
@[simp] theorem State.setObits_cfg : (s.setObits v).cfg = s.cfg := rfl
@[simp] theorem State.setObits_stfCnt : (s.setObits v).stfCnt = s.stfCnt := rfl
@[simp] theorem State.setObits_unsCnt : (s.setObits v).unsCnt = s.unsCnt := rfl
@[simp] theorem State.setObits_unsSkip : (s.setObits v).unsSkip = s.unsSkip := rfl
@[simp] theorem State.setObits_fcsCrc : (s.setObits v).fcsCrc = s.fcsCrc := rfl
@[simp] theorem State.setObits_bres : (s.setObits v).bres = s.bres := rfl
@[simp] theorem State.setObits_status : (s.setObits v).status = s.status := rfl
@[simp] theorem State.setObits_ibits : (s.setObits v).ibits = s.ibits := rfl
@[simp] theorem State.setObits_obits : (s.setObits v).obits = v := rfl
@[simp] theorem State.setObits_csIn : (s.setObits v).csIn = s.csIn := rfl
@[simp] theorem State.setObits_csOut : (s.setObits v).csOut = s.csOut := rfl
@[simp] theorem State.setObits_fd : (s.setObits v).fd = s.fd := rfl
@[simp] theorem State.setObits_rx : (s.setObits v).rx = s.rx := rfl
@[simp] theorem State.setObits_host : (s.setObits v).host = s.host := rfl
@[simp] theorem State.setObits_reply : (s.setObits v).reply = s.reply := rfl
end

section
variable (s : State) (v : Addr)
theorem State.setCsOut_eq : s.setCsOut v = { s with csOut := v } := rfl
@[simp] theorem State.setCsOut_cfg : (s.setCsOut v).cfg = s.cfg := rfl
@[simp] theorem State.setCsOut_stfCnt : (s.setCsOut v).stfCnt = s.stfCnt := rfl
@[simp] theorem State.setCsOut_unsCnt : (s.setCsOut v).unsCnt = s.unsCnt := rfl
@[simp] theorem State.setCsOut_unsSkip : (s.setCsOut v).unsSkip = s.unsSkip := rfl
@[simp] theorem State.setCsOut_fcsCrc : (s.setCsOut v).fcsCrc = s.fcsCrc := rfl
@[simp] theorem State.setCsOut_bres : (s.setCsOut v).bres = s.bres := rfl
@[simp] theorem State.setCsOut_status : (s.setCsOut v).status = s.status := rfl
@[simp] theorem State.setCsOut_ibits : (s.setCsOut v).ibits = s.ibits := rfl
@[simp] theorem State.setCsOut_obits : (s.setCsOut v).obits = s.obits := rfl
@[simp] theorem State.setCsOut_csIn : (s.setCsOut v).csIn = s.csIn := rfl
@[simp] theorem State.setCsOut_csOut : (s.setCsOut v).csOut = v := rfl
@[simp] theorem State.setCsOut_fd : (s.setCsOut v).fd = s.fd := rfl
@[simp] theorem State.setCsOut_rx : (s.setCsOut v).rx = s.rx := rfl
@[simp] theorem State.setCsOut_host : (s.setCsOut v).host = s.host := rfl
@[simp] theorem State.setCsOut_reply : (s.setCsOut v).reply = s.reply := rfl
end

section
variable (s : State) (v : Fd)
theorem State.setFd_eq : s.setFd v = { s with fd := v } := rfl
@[simp] theorem State.setFd_cfg : (s.setFd v).cfg = s.cfg := rfl
@[simp] theorem State.setFd_stfCnt : (s.setFd v).stfCnt = s.stfCnt := rfl
@[simp] theorem State.setFd_unsCnt : (s.setFd v).unsCnt = s.unsCnt := rfl
@[simp] theorem State.setFd_unsSkip : (s.setFd v).unsSkip = s.unsSkip := rfl
@[simp] theorem State.setFd_fcsCrc : (s.setFd v).fcsCrc = s.fcsCrc := rfl
@[simp] theorem State.setFd_bres : (s.setFd v).bres = s.bres := rfl
@[simp] theorem State.setFd_status : (s.setFd v).status = s.status := rfl
@[simp] theorem State.setFd_ibits : (s.setFd v).ibits = s.ibits := rfl
@[simp] theorem State.setFd_obits : (s.setFd v).obits = s.obits := rfl
@[simp] theorem State.setFd_csIn : (s.setFd v).csIn = s.csIn := rfl
@[simp] theorem State.setFd_csOut : (s.setFd v).csOut = s.csOut := rfl
@[simp] theorem State.setFd_fd : (s.setFd v).fd = v := rfl
@[simp] theorem State.setFd_rx : (s.setFd v).rx = s.rx := rfl
@[simp] theorem State.setFd_host : (s.setFd v).host = s.host := rfl
@[simp] theorem State.setFd_reply : (s.setFd v).reply = s.reply := rfl
end

section
variable (s : State) (v : Word)
theorem State.setFdFcs_eq : s.setFdFcs v = { s with fd := { s.fd with fcs := v } } := rfl
@[simp] theorem State.setFdFcs_cfg : (s.setFdFcs v).cfg = s.cfg := rfl
@[simp] theorem State.setFdFcs_stfCnt : (s.setFdFcs v).stfCnt = s.stfCnt := rfl
@[simp] theorem State.setFdFcs_unsCnt : (s.setFdFcs v).unsCnt = s.unsCnt := rfl
@[simp] theorem State.setFdFcs_unsSkip : (s.setFdFcs v).unsSkip = s.unsSkip := rfl
@[simp] theorem State.setFdFcs_fcsCrc : (s.setFdFcs v).fcsCrc = s.fcsCrc := rfl
@[simp] theorem State.setFdFcs_bres : (s.setFdFcs v).bres = s.bres := rfl
@[simp] theorem State.setFdFcs_status : (s.setFdFcs v).status = s.status := rfl
@[simp] theorem State.setFdFcs_ibits : (s.setFdFcs v).ibits = s.ibits := rfl
@[simp] theorem State.setFdFcs_obits : (s.setFdFcs v).obits = s.obits := rfl
@[simp] theorem State.setFdFcs_csIn : (s.setFdFcs v).csIn = s.csIn := rfl
@[simp] theorem State.setFdFcs_csOut : (s.setFdFcs v).csOut = s.csOut := rfl
@[simp] theorem State.setFdFcs_fd : (s.setFdFcs v).fd = { s.fd with fcs := v } := rfl
@[simp] theorem State.setFdFcs_rx : (s.setFdFcs v).rx = s.rx := rfl
@[simp] theorem State.setFdFcs_host : (s.setFdFcs v).host = s.host := rfl
@[simp] theorem State.setFdFcs_reply : (s.setFdFcs v).reply = s.reply := rfl
end

section
variable (s : State) (v : Rx)
theorem State.setRx_eq : s.setRx v = { s with rx := v } := rfl
@[simp] theorem State.setRx_cfg : (s.setRx v).cfg = s.cfg := rfl
@[simp] theorem State.setRx_stfCnt : (s.setRx v).stfCnt = s.stfCnt := rfl
@[simp] theorem State.setRx_unsCnt : (s.setRx v).unsCnt = s.unsCnt := rfl
@[simp] theorem State.setRx_unsSkip : (s.setRx v).unsSkip = s.unsSkip := rfl
@[simp] theorem State.setRx_fcsCrc : (s.setRx v).fcsCrc = s.fcsCrc := rfl
@[simp] theorem State.setRx_bres : (s.setRx v).bres = s.bres := rfl
@[simp] theorem State.setRx_status : (s.setRx v).status = s.status := rfl
@[simp] theorem State.setRx_ibits : (s.setRx v).ibits = s.ibits := rfl
@[simp] theorem State.setRx_obits : (s.setRx v).obits = s.obits := rfl
@[simp] theorem State.setRx_csIn : (s.setRx v).csIn = s.csIn := rfl
@[simp] theorem State.setRx_csOut : (s.setRx v).csOut = s.csOut := rfl
@[simp] theorem State.setRx_fd : (s.setRx v).fd = s.fd := rfl
@[simp] theorem State.setRx_rx : (s.setRx v).rx = v := rfl
@[simp] theorem State.setRx_host : (s.setRx v).host = s.host := rfl
@[simp] theorem State.setRx_reply : (s.setRx v).reply = s.reply := rfl
end

section
variable (s : State) (v : Bits)
theorem State.setIbits_eq : s.setIbits v = { s with ibits := v } := rfl
@[simp] theorem State.setIbits_cfg : (s.setIbits v).cfg = s.cfg := rfl
@[simp] theorem State.setIbits_stfCnt : (s.setIbits v).stfCnt = s.stfCnt := rfl
@[simp] theorem State.setIbits_unsCnt : (s.setIbits v).unsCnt = s.unsCnt := rfl
@[simp] theorem State.setIbits_unsSkip : (s.setIbits v).unsSkip = s.unsSkip := rfl
@[simp] theorem State.setIbits_fcsCrc : (s.setIbits v).fcsCrc = s.fcsCrc := rfl
@[simp] theorem State.setIbits_bres : (s.setIbits v).bres = s.bres := rfl
@[simp] theorem State.setIbits_status : (s.setIbits v).status = s.status := rfl
@[simp] theorem State.setIbits_ibits : (s.setIbits v).ibits = v := rfl
@[simp] theorem State.setIbits_obits : (s.setIbits v).obits = s.obits := rfl
@[simp] theorem State.setIbits_csIn : (s.setIbits v).csIn = s.csIn := rfl
@[simp] theorem State.setIbits_csOut : (s.setIbits v).csOut = s.csOut := rfl
@[simp] theorem State.setIbits_fd : (s.setIbits v).fd = s.fd := rfl
@[simp] theorem State.setIbits_rx : (s.setIbits v).rx = s.rx := rfl
@[simp] theorem State.setIbits_host : (s.setIbits v).host = s.host := rfl
@[simp] theorem State.setIbits_reply : (s.setIbits v).reply = s.reply := rfl
end

section
variable (s : State) (v : Bytes)
theorem State.setCsIn_eq : s.setCsIn v = { s with csIn := v } := rfl
@[simp] theorem State.setCsIn_cfg : (s.setCsIn v).cfg = s.cfg := rfl
@[simp] theorem State.setCsIn_stfCnt : (s.setCsIn v).stfCnt = s.stfCnt := rfl
@[simp] theorem State.setCsIn_unsCnt : (s.setCsIn v).unsCnt = s.unsCnt := rfl
@[simp] theorem State.setCsIn_unsSkip : (s.setCsIn v).unsSkip = s.unsSkip := rfl
@[simp] theorem State.setCsIn_fcsCrc : (s.setCsIn v).fcsCrc = s.fcsCrc := rfl
@[simp] theorem State.setCsIn_bres : (s.setCsIn v).bres = s.bres := rfl
@[simp] theorem State.setCsIn_status : (s.setCsIn v).status = s.status := rfl
@[simp] theorem State.setCsIn_ibits : (s.setCsIn v).ibits = s.ibits := rfl
@[simp] theorem State.setCsIn_obits : (s.setCsIn v).obits = s.obits := rfl
@[simp] theorem State.setCsIn_csIn : (s.setCsIn v).csIn = v := rfl
@[simp] theorem State.setCsIn_csOut : (s.setCsIn v).csOut = s.csOut := rfl
@[simp] theorem State.setCsIn_fd : (s.setCsIn v).fd = s.fd := rfl
@[simp] theorem State.setCsIn_rx : (s.setCsIn v).rx = s.rx := rfl
@[simp] theorem State.setCsIn_host : (s.setCsIn v).host = s.host := rfl
@[simp] theorem State.setCsIn_reply : (s.setCsIn v).reply = s.reply := rfl
end

section
variable (s : State) (v : List HostAct)
theorem State.setHost_eq : s.setHost v = { s with host := v } := rfl
@[simp] theorem State.setHost_cfg : (s.setHost v).cfg = s.cfg := rfl
@[simp] theorem State.setHost_stfCnt : (s.setHost v).stfCnt = s.stfCnt := rfl
@[simp] theorem State.setHost_unsCnt : (s.setHost v).unsCnt = s.unsCnt := rfl
@[simp] theorem State.setHost_unsSkip : (s.setHost v).unsSkip = s.unsSkip := rfl
@[simp] theorem State.setHost_fcsCrc : (s.setHost v).fcsCrc = s.fcsCrc := rfl
@[simp] theorem State.setHost_bres : (s.setHost v).bres = s.bres := rfl
@[simp] theorem State.setHost_status : (s.setHost v).status = s.status := rfl
@[simp] theorem State.setHost_ibits : (s.setHost v).ibits = s.ibits := rfl
@[simp] theorem State.setHost_obits : (s.setHost v).obits = s.obits := rfl
@[simp] theorem State.setHost_csIn : (s.setHost v).csIn = s.csIn := rfl
@[simp] theorem State.setHost_csOut : (s.setHost v).csOut = s.csOut := rfl
@[simp] theorem State.setHost_fd : (s.setHost v).fd = s.fd := rfl
@[simp] theorem State.setHost_rx : (s.setHost v).rx = s.rx := rfl
@[simp] theorem State.setHost_host : (s.setHost v).host = v := rfl
@[simp] theorem State.setHost_reply : (s.setHost v).reply = s.reply := rfl
end

section
variable (s : State) (v : Option HostVal)
theorem State.setReply_eq : s.setReply v = { s with reply := v } := rfl
@[simp] theorem State.setReply_cfg : (s.setReply v).cfg = s.cfg := rfl
@[simp] theorem State.setReply_stfCnt : (s.setReply v).stfCnt = s.stfCnt := rfl
@[simp] theorem State.setReply_unsCnt : (s.setReply v).unsCnt = s.unsCnt := rfl
@[simp] theorem State.setReply_unsSkip : (s.setReply v).unsSkip = s.unsSkip := rfl
@[simp] theorem State.setReply_fcsCrc : (s.setReply v).fcsCrc = s.fcsCrc := rfl
@[simp] theorem State.setReply_bres : (s.setReply v).bres = s.bres := rfl
@[simp] theorem State.setReply_status : (s.setReply v).status = s.status := rfl
@[simp] theorem State.setReply_ibits : (s.setReply v).ibits = s.ibits := rfl
@[simp] theorem State.setReply_obits : (s.setReply v).obits = s.obits := rfl
@[simp] theorem State.setReply_csIn : (s.setReply v).csIn = s.csIn := rfl
@[simp] theorem State.setReply_csOut : (s.setReply v).csOut = s.csOut := rfl
@[simp] theorem State.setReply_fd : (s.setReply v).fd = s.fd := rfl
@[simp] theorem State.setReply_rx : (s.setReply v).rx = s.rx := rfl
@[simp] theorem State.setReply_host : (s.setReply v).host = s.host := rfl
@[simp] theorem State.setReply_reply : (s.setReply v).reply = v := rfl
end

/-! The two updates of a setter on itself that the meanings compose. -/

theorem State.setStatus_setStatus (s : State) (a b : Status) : (s.setStatus a).setStatus b = s.setStatus b := rfl

theorem State.setHost_queueFree (s : State) : s.setHost s.host = s := rfl

end Sys2Proof.Machine
end

