-- ==== Sys2Proof/Laws/Ops.lean ====
section
/-! SUPPORT. What each shared operation of Machine/Ops.lean can answer, once. -/

namespace Sys2Proof.Machine

open Sys2Proof

@[simp] theorem complete_eq_next {s t : State} : complete s = .next t ↔ t = s.setStatus .ok := by
  simp [complete, eq_comm]

@[simp] theorem raise_eq_next {E : Status} {s t : State} : raise E s = .next t ↔ t = s.setStatus E := by
  simp [raise, eq_comm]

@[simp] theorem raiseObits_eq_next {E : Status} {s t : State} :
    raiseObits E s = .next t ↔ t = (s.setObits []).setStatus E := by
  simp [raiseObits]

@[simp] theorem raiseCsOut_eq_next {E : Status} {s t : State} :
    raiseCsOut E s = .next t ↔ t = (s.setCsOut Addr.zero).setStatus E := by
  simp [raiseCsOut]

/-- A result that fits is written whole; one that does not leaves OBITS empty and CAPACITY. -/
theorem emitObits_eq_next {r : Bits} {s t : State} :
    emitObits r s = .next t ↔
      (r.length ≤ s.cfg.obitsMax ∧ t = (s.setObits r).setStatus .ok) ∨
      (s.cfg.obitsMax < r.length ∧ t = (s.setObits []).setStatus .capacity) := by
  unfold emitObits
  split
  · next h => simp [h, Nat.not_le.2 h]
  · next h => simp [h, Nat.not_lt.1 h]

theorem emitObits_fits {r : Bits} {s : State} (h : r.length ≤ s.cfg.obitsMax) :
    emitObits r s = .next ((s.setObits r).setStatus .ok) := emitObits_eq_next.2 (.inl ⟨h, rfl⟩)

theorem emitObits_overflows {r : Bits} {s : State} (h : s.cfg.obitsMax < r.length) :
    emitObits r s = .next ((s.setObits []).setStatus .capacity) := emitObits_eq_next.2 (.inr ⟨h, rfl⟩)

@[simp] theorem resultState_next (s : State) : resultState (.next s) = some s := rfl

theorem resultState_eq_some {r : Result} {s : State} : resultState r = some s ↔ r = .next s := by
  cases r <;> simp [resultState]

end Sys2Proof.Machine
end

