-- ==== Sys2Proof/Laws/PerInstr.lean ====
section
/-! SUPPORT. Statements about every command as syntax, one lemma per constructor. -/

namespace Sys2Proof.Laws.TableForm

open Sys2Proof

/-- The encoding of a well-formed command has its opcode in bits [15:8], its argument in bits [7:0], and a 0 in every bit its
format requires to be 0 (R71, R73, R78). -/
def Statement (i : Instr) : Prop :=
  i.wellFormed = true →
    opcOf (encode i) = i.opcode ∧ argOf (encode i) = i.argument ∧
      match i.format with
      | .n => i.argument = 0
      | .b => i.argument >>> 1 = 0
      | .y => True
      | .a => i.argument.getLsbD 7 = false

theorem opcOf_append (a b : Byte) : opcOf (a ++ b) = a := by
  apply BitVec.eq_of_getLsbD_eq
  intro i h
  simp only [opcOf, BitVec.getLsbD_extractLsb', BitVec.getLsbD_append]
  simp [h]

theorem argOf_append (a b : Byte) : argOf (a ++ b) = b := by
  apply BitVec.eq_of_getLsbD_eq
  intro i h
  simp only [argOf, BitVec.getLsbD_extractLsb', BitVec.getLsbD_append]
  simp [h]

theorem noArgument {i : Instr} (hf : i.format = .n) (ha : i.argument = 0) : Statement i := fun _ =>
  ⟨opcOf_append _ _, argOf_append _ _, by rw [hf]; exact ha⟩

theorem bitArgument {i : Instr} {b : Bool} (hf : i.format = .b) (ha : i.argument = (BitVec.ofBool b).setWidth 8) :
    Statement i := fun _ =>
  ⟨opcOf_append _ _, argOf_append _ _, by rw [hf, ha]; cases b <;> rfl⟩

theorem rst : Statement .rst := noArgument rfl rfl
theorem nop : Statement .nop := noArgument rfl rfl
theorem stfClr : Statement .stfClr := noArgument rfl rfl
theorem stfBit (b : Bool) : Statement (.stfBit b) := bitArgument rfl rfl
theorem stfSeq : Statement .stfSeq := noArgument rfl rfl
theorem unsClr : Statement .unsClr := noArgument rfl rfl
theorem unsBit (b : Bool) : Statement (.unsBit b) := bitArgument rfl rfl
theorem unsSeq : Statement .unsSeq := noArgument rfl rfl
theorem fcsInit : Statement .fcsInit := noArgument rfl rfl
theorem fcsBit (b : Bool) : Statement (.fcsBit b) := bitArgument rfl rfl
theorem fcsByte (v : Byte) : Statement (.fcsByte v) := fun _ => ⟨opcOf_append _ _, argOf_append _ _, trivial⟩
theorem fcsApp : Statement .fcsApp := noArgument rfl rfl
theorem fcsVal : Statement .fcsVal := noArgument rfl rfl
theorem csEnc (c : Byte) : Statement (.csEnc c) := fun h => by
  refine ⟨opcOf_append _ _, argOf_append _ _, ?_⟩
  have hc : c.toNat < 128 := of_decide_eq_true h
  show c.getLsbD 7 = false
  rw [BitVec.getLsbD]
  exact Nat.testBit_lt_two_pow hc
theorem csDec : Statement .csDec := noArgument rfl rfl
theorem hdrHdr : Statement .hdrHdr := noArgument rfl rfl
theorem hdrFcsf : Statement .hdrFcsf := noArgument rfl rfl
theorem hdrSer : Statement .hdrSer := noArgument rfl rfl
theorem hdrDes : Statement .hdrDes := noArgument rfl rfl

end Sys2Proof.Laws.TableForm
end

