-- ==== Sys2Proof/Laws/Step.lean ====
section
/-! SUPPORT. What a step can do, said once: one case per host action, and the issue of a command. -/

namespace Sys2Proof.Machine

open Sys2Proof

theorem issue_of_ok {cw : Word} {i : Instr} (h : decode cw = .ok i) (s : State) : issue cw s = exec i s := by
  simp [issue, h]

theorem issue_of_error {cw : Word} {e : DecodeError} (h : decode cw = .error e) (s : State) :
    issue cw s = .next (s.setStatus .illegalCommand) := by
  simp [issue, h, illegalCommand, raise]

theorem issue_cases (cw : Word) (s : State) :
    (∃ i, decode cw = .ok i ∧ issue cw s = exec i s) ∨
    (∃ e, decode cw = .error e ∧ issue cw s = .next (s.setStatus .illegalCommand)) := by
  cases h : decode cw with
  | ok i => exact .inl ⟨i, rfl, issue_of_ok h s⟩
  | error e => exact .inr ⟨e, rfl, issue_of_error h s⟩

@[simp] theorem queueCommand_host (s : State) (cw : Word) : (s.queueCommand cw).host = .writeReg 0 cw :: s.host := rfl

theorem step_of_host_nil {s : State} (h : s.host = []) : step s = .next s := by simp [step, h]

theorem step_of_host_cons {s : State} {a : HostAct} {rest : List HostAct} (h : s.host = a :: rest) :
    step s = hostStep a (s.setHost rest) := by simp [step, h]

/-- A queued command is issued on the state it was queued in. -/
theorem step_queueCommand (s : State) (cw : Word) : step (s.queueCommand cw) = issue cw s := by
  rw [step_of_host_cons (queueCommand_host s cw)]; rfl

/-- Everything a step that goes on can have done. -/
theorem step_cases {s t : State} (h : step s = .next t) :
    (s.host = [] ∧ t = s) ∨
    ∃ rest, (s.host = .powerOnReset :: rest ∧ t = powerOnReset (s.setHost rest)) ∨
      (∃ cw, s.host = .writeReg 0 cw :: rest ∧ issue cw (s.setHost rest) = .next t) ∨
      (∃ n v, n ≠ 0 ∧ s.host = .writeReg n v :: rest ∧ t = regWrite n v (s.setHost rest)) ∨
      (∃ n, s.host = .readReg n :: rest ∧ t = (s.setHost rest).setReply (some (.word (regRead n (s.setHost rest))))) ∨
      (∃ w, s.host = .writePort w :: rest ∧ portWriteFits w s.cfg = true ∧ t = portWrite w (s.setHost rest)) ∨
      (∃ p, s.host = .readPort p :: rest ∧ t = (s.setHost rest).setReply (some (portRead p (s.setHost rest)))) := by
  cases hh : s.host with
  | nil => rw [step_of_host_nil hh] at h; cases h; exact .inl ⟨rfl, rfl⟩
  | cons a rest =>
    rw [step_of_host_cons hh] at h
    refine .inr ⟨rest, ?_⟩
    cases a with
    | powerOnReset => simp only [hostStep] at h; cases h; exact .inl ⟨rfl, rfl⟩
    | writeReg n v =>
      simp only [hostStep] at h
      split at h
      · next h0 => subst h0; exact .inr (.inl ⟨v, rfl, h⟩)
      · next h0 => cases h; exact .inr (.inr (.inl ⟨n, v, h0, rfl, rfl⟩))
    | readReg n => simp only [hostStep] at h; cases h; exact .inr (.inr (.inr (.inl ⟨n, rfl, rfl⟩)))
    | writePort w =>
      simp only [hostStep] at h
      split at h
      · next hf => cases h; exact .inr (.inr (.inr (.inr (.inl ⟨w, rfl, hf, rfl⟩))))
      · cases h
    | readPort p => simp only [hostStep] at h; cases h; exact .inr (.inr (.inr (.inr (.inr ⟨p, rfl, rfl⟩))))

/-- RX.REASON of a decode is OK exactly when it succeeded, so HDR.DES writes it to STATUS in both cases (R238, R239). -/
theorem parse_valid_iff (maxInfo : Nat) (s : Bits) : (parse maxInfo s).valid = true ↔ (parse maxInfo s).reason = .ok := by
  obtain ⟨e, -⟩ | ⟨u, -, -, e⟩ | ⟨B, -, h⟩ := parse_cases maxInfo s
  · simp [e]
  · simp [e]
  · obtain ⟨E, hs, e⟩ | ⟨r, hs, e⟩ := h
    · obtain ⟨e', -⟩ | ⟨j, -, -, -, ⟨e', -⟩ | ⟨-, -, -, ⟨e', -⟩ | ⟨e', -⟩⟩⟩ := splitBody_cases maxInfo B <;>
        rw [e'] at hs <;> simp at hs <;> simp [e, ← hs]
    · obtain ⟨e', -⟩ | ⟨j, -, -, -, ⟨e', -⟩ | ⟨-, -, -, ⟨e', -⟩ | ⟨e', -⟩⟩⟩ := splitBody_cases maxInfo B <;>
        rw [e'] at hs <;> simp at hs
      simp [e, ← hs, Rx.decoded]

/-- HDR.DES writes RX, and RX.REASON to STATUS (R238, R239). -/
theorem execHdrDes_eq (s : State) : execHdrDes s =
    .next ((s.setRx (parse s.cfg.maxInfoBytes s.ibits)).setStatus (parse s.cfg.maxInfoBytes s.ibits).reason) := by
  unfold execHdrDes
  cases h : (parse s.cfg.maxInfoBytes s.ibits).valid with
  | true => simp [h, (parse_valid_iff _ _).1 h]
  | false => simp [h]

end Sys2Proof.Machine
end

