-- ==== Sys2Proof/Machine/Assembler.lean ====
section
/-! DEFINITION. The command syntax of R78 and R79: one line of text to the commands it stands for. Text plays no part in a
step; the core sees only command words (R64). What R78 leaves open of the text (blanks, letter case, commas, leading
zeros, what may be quoted) is log 15. -/

namespace Sys2Proof.Machine

open Sys2Proof

/-- A line of a program (R78). -/
inductive AsmLine where
  /-- Nothing but blanks or a comment. -/
  | blank
  /-- A line starting `host:`, which is a host action and not a command. -/
  | hostAction
  /-- The commands of a command or pseudo-instruction, in order. -/
  | commands (is : List Instr)
  deriving DecidableEq, Repr

/-- An operand as it is written: decimal, hexadecimal, or a quoted character. -/
inductive AsmOperand where
  | dec (n : Nat)
  | hex (n : Nat)
  | quoted (n : Nat)
  deriving DecidableEq, Repr

/-- A space or a tab. -/
def isBlank (c : Char) : Bool := c = ' ' || c = '\t'

/-- The digits of a number in a base, most significant first; none on a character that is no digit. -/
def digitsValue (base : Nat) : List Char → Nat → Option Nat
  | [], acc => some acc
  | c :: cs, acc =>
    let d :=
      if '0' ≤ c ∧ c ≤ '9' then c.toNat - 48
      else if 'a' ≤ c ∧ c ≤ 'f' then c.toNat - 87
      else if 'A' ≤ c ∧ c ≤ 'F' then c.toNat - 55
      else 16
    if d < base then digitsValue base cs (base * acc + d) else none

/-- An integer in decimal or `0x` hexadecimal. DESIGN CHOICE (log 15): leading zeros do not change the number, so `007` is 7. -/
def asmNumber (cs : List Char) : Option AsmOperand :=
  match cs with
  | '0' :: 'x' :: c :: ds => (digitsValue 16 (c :: ds) 0).map .hex
  | c :: ds => (digitsValue 10 (c :: ds) 0).map .dec
  | [] => none

/-- The characters up to a blank, comma or comment, and the rest. -/
def asmToken (cs : List Char) : List Char × List Char :=
  cs.span fun c => !(isBlank c || c = ',' || c = ';')

/-- One operand, and the rest of the line. DESIGN CHOICE (log 15): any one character between two quote marks is the quoted
character, a `;`, a blank or a quote mark too, so `';'` starts no comment. -/
def asmOperand (cs : List Char) : Option (AsmOperand × List Char) :=
  match cs with
  | '\'' :: c :: '\'' :: rest => some (.quoted c.toNat, rest)
  | cs => (asmNumber (asmToken cs).1).map fun v => (v, (asmToken cs).2)

/-- The operands of a line, separated by blanks, or by commas where `commas`; the comment ends them. `fuel` bounds their
number. -/
def asmOperands (commas : Bool) : Nat → List Char → Option (List AsmOperand)
  | 0, _ => none
  | fuel + 1, cs =>
    match cs.dropWhile isBlank with
    | [] => some []
    | ';' :: _ => some []
    | c :: cs =>
      match asmOperand (c :: cs) with
      | none => none
      | some (v, rest) =>
        match commas, rest.dropWhile isBlank with
        | _, [] => some [v]
        | _, ';' :: _ => some [v]
        | true, ',' :: rest =>
          match rest.dropWhile isBlank with
          | [] => none
          | ';' :: _ => none
          | rest => (asmOperands commas fuel rest).map (v :: ·)
        | true, _ => none
        | false, _ => if (rest.take 1).all isBlank then (asmOperands commas fuel rest).map (v :: ·) else none

/-- Format B's operand, `0` or `1` (R78). DESIGN CHOICE (log 15): any decimal numeral of that value stands for it, as `00` and
`01`; a hexadecimal or quoted one does not. -/
def asmBit : AsmOperand → Option Bool
  | .dec 0 => some false
  | .dec 1 => some true
  | _ => none

/-- Format Y's operand, an integer 0..255 in decimal or hexadecimal (R78). -/
def asmByte : AsmOperand → Option Byte
  | .dec n | .hex n => if n < 256 then some (BitVec.ofNat 8 n) else none
  | .quoted _ => none

/-- Format A's operand, a quoted character or an integer 0..127 (R78; hexadecimal too, as V-ENC writes `CS.ENC 0x7F`). -/
def asmChar : AsmOperand → Option Byte
  | .dec n | .hex n | .quoted n => if n < 128 then some (BitVec.ofNat 8 n) else none

/-- A mnemonic with its operands (R73, R78, R79). -/
def asmCommand (mnemonic : String) (ops : List AsmOperand) : Option (List Instr) :=
  match mnemonic, ops with
  | "RST", [] => some [.rst]
  | "NOP", [] => some [.nop]
  | "STF.CLR", [] => some [.stfClr]
  | "STF.BIT", [x] => (asmBit x).map fun b => [.stfBit b]
  | "STF.SEQ", [] => some [.stfSeq]
  | "UNS.CLR", [] => some [.unsClr]
  | "UNS.BIT", [x] => (asmBit x).map fun b => [.unsBit b]
  | "UNS.SEQ", [] => some [.unsSeq]
  | "FCS.INIT", [] => some [.fcsInit]
  | "FCS.BIT", [x] => (asmBit x).map fun b => [.fcsBit b]
  | "FCS.BYTE", [x] => (asmByte x).map fun v => [.fcsByte v]
  | "FCS.APP", [] => some [.fcsApp]
  | "FCS.VAL", [] => some [.fcsVal]
  | "CS.ENC", [x] => (asmChar x).map fun c => [.csEnc c]
  | "CS.ENC", [] => some (Pseudo.expand .csEncDefault)
  | "CS.DEC", [] => some [.csDec]
  | "HDR.HDR", [] => some [.hdrHdr]
  | "HDR.FCSF", [] => some [.hdrFcsf]
  | "HDR.SER", [] => some [.hdrSer]
  | "HDR.DES", [] => some [.hdrDes]
  | "STF.BITS", x :: xs => ((x :: xs).mapM asmBit).map fun bs => Pseudo.expand (.stfBits bs)
  | "UNS.BITS", x :: xs => ((x :: xs).mapM asmBit).map fun bs => Pseudo.expand (.unsBits bs)
  | "FCS.BITS", x :: xs => ((x :: xs).mapM asmBit).map fun bs => Pseudo.expand (.fcsBits bs)
  | "FCS.BYTES", x :: xs => ((x :: xs).mapM asmByte).map fun vs => Pseudo.expand (.fcsBytes vs)
  | _, _ => none

/-- One line of a program (R78): none when it is no line of the syntax. -/
def assembleLine (line : List Char) : Option AsmLine :=
  match line.dropWhile isBlank with
  | [] => some .blank
  | ';' :: _ => some .blank
  | 'h' :: 'o' :: 's' :: 't' :: ':' :: _ => some .hostAction
  | cs =>
    let m := String.ofList (asmToken cs).1
    match asmOperands (m == "FCS.BYTES") (line.length + 1) (asmToken cs).2 with
    | some ops => (asmCommand m ops).map .commands
    | none => none

/-- The command words of a line, in order (R78); none when the line is no command. -/
def lineWords (line : List Char) : Option (List Word) :=
  match assembleLine line with
  | some (.commands is) => some (is.map encode)
  | _ => none

end Sys2Proof.Machine
end

