-- ==== Sys2Proof/Tests/Slice0.lean ====
section
/-! SUPPORT. Tests: the WellFormed smoke, command words written out from R73 and V-ENC, one or two vectors of
spec/95_test_vectors.md for each command, and a witness for the hypotheses of each statement. Expected values are the spec's. -/

namespace Sys2Proof.Tests

open Sys2Proof Sys2Proof.Machine

/-! ## Helpers -/

/-- A bit sequence written in wire order. -/
def bits (s : String) : Bits := (s.toList.filter fun c => c = '0' || c = '1').map (· = '1')

/-- A byte string of ASCII codes (R14). -/
def text (s : String) : Bytes := s.toList.map fun c => BitVec.ofNat 8 c.toNat

/-- The state a command word written to CMD leaves. -/
def after (cw : Word) (s : State) : State := (resultState (step (s.queueCommand cw))).getD State.reset

/-- Reset with an input sequence, and a result left in OBITS by an earlier command. -/
def withBits (b : Bits) : State := { State.reset with ibits := b, obits := [true] }

/-- Reset with a callsign text, and a result left in CS_OUT by an earlier command. -/
def withText (t : Bytes) : State := { State.reset with csIn := t, csOut := Vector.replicate 7 0x55 }

/-- A core whose OBITS holds 8 bits and whose info fields hold none, to reach CAPACITY. -/
def tiny : State := State.resetWith ⟨64, 8, 8, 0⟩

/-- A core whose info fields hold no byte. -/
def noInfo : State := State.resetWith ⟨1024, 1024, 8, 0⟩

/-- FD of V-SER-1. -/
def fdSer1 : Fd :=
  { Fd.reset with destTxt := text "APRS", srcTxt := text "N0CALL", ndigi := 2, info := text "!"
                  digiTxt := (Fd.reset.digiTxt.set 0 (text "WIDE1-1")).set 1 (text "WIDE2-1") }

/-- FD of V-SER-2. -/
def fdSer2 : Fd := { Fd.reset with destTxt := text "A", srcTxt := text "B" }

/-- The 14 address bytes `82 A0 A4 A6 40 40 60 9C 60 86 82 98 98 61` of V-DES-9 to V-DES-12. -/
def addr14 : Bytes := [0x82, 0xA0, 0xA4, 0xA6, 0x40, 0x40, 0x60, 0x9C, 0x60, 0x86, 0x82, 0x98, 0x98, 0x61]

/-- The WIDE1-1 address `AE 92 88 8A 62 40 62`. -/
def wide1 : Bytes := [0xAE, 0x92, 0x88, 0x8A, 0x62, 0x40, 0x62]

/-- The 161 bits of V-SER-2. -/
def wireSer2 : Bits := bits (
  "01111110 01000001 00000010 00000010 00000010 00000010 00000010 00000110" ++
  "00100001 00000010 00000010 00000010 00000010 00000010 10000110 11000000" ++
  "00001111 01011111 01001101 10111111 0")

/-! ## WellFormed refuses an ill-formed term -/

theorem test_wellFormed_refuses_csEnc_0x80 : (Instr.csEnc 0x80).wellFormed = false := by decide
theorem test_wellFormed_refuses_csEnc_0xFF : (Instr.csEnc 0xFF).wellFormed = false := by decide
theorem test_wellFormed_accepts_csEnc_0x7F : (Instr.csEnc 0x7F).wellFormed = true := by decide

/-! ## Decoding: words from R73 and V-ENC -/

theorem test_decode_rst : decode 0x0100 = .ok .rst := rfl
theorem test_decode_nop : decode 0x0200 = .ok .nop := rfl
theorem test_decode_stfClr : decode 0x1000 = .ok .stfClr := rfl
theorem test_decode_stfBit : decode 0x1100 = .ok (.stfBit false) ∧ decode 0x1101 = .ok (.stfBit true) := ⟨rfl, rfl⟩
theorem test_decode_stfSeq : decode 0x1200 = .ok .stfSeq := rfl
theorem test_decode_unsClr : decode 0x2000 = .ok .unsClr := rfl
theorem test_decode_unsBit : decode 0x2100 = .ok (.unsBit false) ∧ decode 0x2101 = .ok (.unsBit true) := ⟨rfl, rfl⟩
theorem test_decode_unsSeq : decode 0x2200 = .ok .unsSeq := rfl
theorem test_decode_fcsInit : decode 0x3000 = .ok .fcsInit := rfl
theorem test_decode_fcsBit : decode 0x3100 = .ok (.fcsBit false) ∧ decode 0x3101 = .ok (.fcsBit true) := ⟨rfl, rfl⟩
theorem test_decode_fcsByte : decode 0x3241 = .ok (.fcsByte 0x41) ∧ decode 0x32FF = .ok (.fcsByte 0xFF) := ⟨rfl, rfl⟩
theorem test_decode_fcsApp : decode 0x3300 = .ok .fcsApp := rfl
theorem test_decode_fcsVal : decode 0x3400 = .ok .fcsVal := rfl
theorem test_decode_csEnc : decode 0x4030 = .ok (.csEnc 0x30) ∧ decode 0x407F = .ok (.csEnc 0x7F) := ⟨rfl, rfl⟩
theorem test_decode_csDec : decode 0x4100 = .ok .csDec := rfl
theorem test_decode_hdrHdr : decode 0x5000 = .ok .hdrHdr := rfl
theorem test_decode_hdrFcsf : decode 0x5100 = .ok .hdrFcsf := rfl
theorem test_decode_hdrSer : decode 0x5200 = .ok .hdrSer := rfl
theorem test_decode_hdrDes : decode 0x6000 = .ok .hdrDes := rfl

theorem test_decode_reserved_opcodes : decode 0x0000 = .error (.reservedOpcode 0x00) ∧
    decode 0x1300 = .error (.reservedOpcode 0x13) ∧ decode 0x3500 = .error (.reservedOpcode 0x35) ∧
    decode 0x6100 = .error (.reservedOpcode 0x61) ∧ decode 0xFFFF = .error (.reservedOpcode 0xFF) :=
  ⟨rfl, rfl, rfl, rfl, rfl⟩

theorem test_decode_reserved_arguments : decode 0x0101 = .error (.reservedArgument 0x01 0x01) ∧
    decode 0x1102 = .error (.reservedArgument 0x11 0x02) ∧ decode 0x11FF = .error (.reservedArgument 0x11 0xFF) ∧
    decode 0x4080 = .error (.reservedArgument 0x40 0x80) ∧ decode 0x5201 = .error (.reservedArgument 0x52 0x01) :=
  ⟨rfl, rfl, rfl, rfl, rfl⟩

theorem test_encode_examples_of_R78 : encode (.stfBit true) = 0x1101 ∧ encode (.fcsByte 0x7E) = 0x327E ∧
    encode (.csEnc 0x30) = 0x4030 ∧ encode .hdrDes = 0x6000 := ⟨rfl, rfl, rfl, rfl⟩

theorem test_decodeTableWord : decodeTableWord 16 0x1101 = some (.stfBit true) ∧ decodeTableWord 16 0x5201 = none :=
  ⟨rfl, rfl⟩

/-! ## Assembler text: R78's and R79's examples -/

theorem test_asm_command : lineWords "STF.BIT 1 ; comment".toList = some [0x1101] := by decide
theorem test_asm_quoted : lineWords "CS.ENC '0'".toList = some [0x4030] := by decide
theorem test_asm_quoted_semicolon : lineWords "CS.ENC ';' ; comment".toList = some [0x403B] := by decide
theorem test_asm_default_ssid : lineWords "CS.ENC".toList = some [0x4030] := by decide
theorem test_asm_bytes : lineWords "FCS.BYTES 0x31, 50".toList = some [0x3231, 0x3232] := by decide
theorem test_asm_bits : lineWords "UNS.BITS 1 0".toList = some [0x2101, 0x2100] := by decide
theorem test_asm_host_line : assembleLine "host: IBITS <- 1".toList = some .hostAction := by decide

/-! ## Commands: vectors of the spec -/

/-- V-CTL: RST keeps IBITS and FD.NDIGI and clears the core's own state. -/
theorem test_rst : let t := after 0x0100 { withBits [true] with fcsCrc := 0x1234, stfCnt := 3, fd := fdSer1 }
    t.fcsCrc = 0xFFFF ∧ t.stfCnt = 0 ∧ t.obits = [] ∧ t.ibits = [true] ∧ t.fd.ndigi = 2 := by decide

/-- V-CTL. -/
theorem test_nop : after 0x0200 { State.reset with status := .capacity } = State.reset := by decide

/-- V-CTL: 0x3001 is illegal. -/
theorem test_illegal : after 0x3001 { State.reset with fcsCrc := 0x1234 }
    = { State.reset with fcsCrc := 0x1234, status := .illegalCommand } := by decide

/-- V-STF: STF.CLR from 3. -/
theorem test_stfClr : (after 0x1000 { State.reset with stfCnt := 3 }).stfCnt = 0 := by decide

/-- V-STF trace, steps 4 and 5. -/
theorem test_stfBit_fifth_one : let t := after 0x1101 { State.reset with stfCnt := 4 }
    regRead 0x06 t = 0x0006 ∧ t.stfCnt = 0 := by decide
theorem test_stfBit_fourth_one : let t := after 0x1101 { State.reset with stfCnt := 3 }
    regRead 0x06 t = 0x0005 ∧ t.stfCnt = 4 := by decide

/-- V-STF: `bits_of(FF FF)`. -/
theorem test_stfSeq : (after 0x1200 (withBits (bits "1111111111111111"))).obits = bits "1111101111101111101" := by decide

/-- V-UNS. -/
theorem test_unsClr : (after 0x2000 { State.reset with unsSkip := true }).unsSkip = false := by decide

/-- V-UNS trace, steps 5 and 12. -/
theorem test_unsBit_fifth_one : let t := after 0x2101 { State.reset with unsCnt := 4 }
    regRead 0x06 t = 0x0005 ∧ regRead 0x03 t = 0x0008 := by decide
theorem test_unsBit_skipped_one : let t := after 0x2101 { State.reset with unsSkip := true }
    regRead 0x06 t = 0x0000 ∧ regRead 0x03 t = 0x0000 := by decide

/-- V-UNS: the 1 in the skip position is discarded. -/
theorem test_unsSeq : (after 0x2200 (withBits (bits "1111111"))).obits = bits "111111" := by decide

theorem test_fcsInit : let t := after 0x3000 { State.reset with fcsCrc := 0x1234 }
    regRead 0x04 t = 0xFFFF ∧ regRead 0x05 t = 0x0000 := by decide

/-- V-FCS-1. -/
theorem test_fcsBit : (after 0x3100 State.reset).fcsCrc = 0xFBF7 ∧
    (after 0x3101 { State.reset with fcsCrc := 0x1234 }).fcsCrc = 0x8D12 := by decide

/-- V-FCS-2: most-significant bit first. -/
theorem test_fcsByte : (after 0x3241 State.reset).fcsCrc = 0xA89D ∧ (after 0x3280 State.reset).fcsCrc = 0x1E0E := by decide

/-- V-FCS-3: the two bit orders differ. -/
theorem test_crc_orders : crcBytes (text "123456789") = 0x8D94 ∧ crcBits (bitsOf (text "123456789")) = 0x6F91 := by
  decide +kernel

/-- V-FCS-4. -/
theorem test_fcsApp : (after 0x3300 (withBits (bits "101"))).obits = bits "101 0010000001000101" := by decide
theorem test_fcsApp_bytes : (after 0x3300 (withBits (bitsOf (text "A")))).obits = bitsOf [0x41, 0xF5, 0xA3] := by decide

/-- V-FCS-4. -/
theorem test_fcsVal : (after 0x3400 (withBits (bits "1010010000001000101"))).obits = bits "101" := by decide
theorem test_fcsVal_short : let t := after 0x3400 (withBits (List.replicate 15 false))
    t.obits = [] ∧ t.status = .checksumMismatch := by decide

/-- V-CS: the suffix overrides the operand, and is upper-cased where the operand is not. -/
theorem test_csEnc : (after 0x4035 (withText (text "n0call-7"))).csOut.toList
      = [0x9C, 0x60, 0x86, 0x82, 0x98, 0x98, 0x6E] ∧
    (after 0x4061 (withText (text "ABC"))).csOut.toList = [0x82, 0x84, 0x86, 0x40, 0x40, 0x40, 0xC2] := by decide
theorem test_csEnc_fails : let t := after 0x4030 (withText (text "A-B-C"))
    t.csOut = Addr.zero ∧ t.status = .structuralError := by decide

/-- V-CS: the marker bit is dropped. -/
theorem test_csDec : (after 0x4100 (withText [0x82, 0xA0, 0xA4, 0xA6, 0x40, 0x40, 0x61])).csOut.toList
    = text "APRS  0" := by decide

/-- V-SER-1. -/
theorem test_hdrHdr : (after 0x5000 { State.reset with fd := fdSer1 }).obits = bitsOf (
    [0x82, 0xA0, 0xA4, 0xA6, 0x40, 0x40, 0x60, 0x9C, 0x60, 0x86, 0x82, 0x98, 0x98, 0x60, 0xAE] ++
    [0x92, 0x88, 0x8A, 0x62, 0x40, 0x62, 0xAE, 0x92, 0x88, 0x8A, 0x64, 0x40, 0x63, 0x03, 0xF0]) := by decide +kernel
theorem test_hdrFcsf : (after 0x5100 { State.reset with fd := fdSer1 }).fd.fcs = 0xAD6C := by decide +kernel

/-- V-SER-2. -/
theorem test_hdrSer : let t := after 0x5200 { State.reset with fd := fdSer2 }
    t.obits = wireSer2 ∧ t.fd.fcs = 0xD9FA := by decide +kernel

/-- V-SER-4: NDIGI = 9. -/
theorem test_hdrSer_nine_digipeaters :
    let t := after 0x5200 { withBits [] with fd := { fdSer1 with ndigi := 9, fcs := 0x1234 } }
    t.obits = [] ∧ t.status = .structuralError ∧ t.fd.fcs = 0x1234 := by decide

/-- V-DES-16. -/
theorem test_hdrDes : let t := after 0x6000 (withBits wireSer2)
    regRead 0x0B t = 0x0021 ∧ t.rx.dest.toList = text "A     0" ∧ t.rx.src.toList = text "B     0" ∧
      t.rx.fcs = 0xD9FA ∧ t.status = .ok := by decide +kernel

/-- V-DES-9: a digipeater block of 3 bytes, with a valid FCS. -/
theorem test_hdrDes_block_of_three :
    let t := after 0x6000 (withBits (wire (addr14 ++ [0x40, 0x40, 0x40, 0x03, 0xF0, 0x21, 0x81, 0xD4])))
    regRead 0x0B t = 0x002A ∧ t.status = .malformed := by decide +kernel

/-! ## Steps -/

/-- P3's form: host writes, then a command, through the machine's own steps. -/
theorem test_run_from_reset :
    (resultState (Host.Core.run Sys2Proof.core 3
      { State.reset with host := [.writePort (.ibits (bits "11111")), .writeReg 0x00 0x1200, .readPort .obits] })).map
      (·.reply) = some (some (.bits (bits "111110"))) := by decide

theorem test_withFetchWord_runs : (resultState (step (State.reset.withFetchWord 16 0x1101))).map (·.bres)
    = some ⟨1, true, false⟩ := by decide

theorem test_powerOnReset : (resultState (step { withBits [true] with host := [.powerOnReset] })).map (·.ibits)
    = some [] := by decide

/-! ## Witnesses: the hypotheses of the statements are met -/

/-- The illegal forms of the per-command statements: a word of each opcode that is not one of the command's own. -/
theorem witness_illegal_forms : ∀ p ∈ ([(0x0101, 0x01), (0x0201, 0x02), (0x1001, 0x10), (0x1102, 0x11), (0x1201, 0x12),
    (0x2001, 0x20), (0x2102, 0x21), (0x2201, 0x22), (0x3001, 0x30), (0x3102, 0x31)] ++ [(0x3301, 0x33), (0x3401, 0x34),
    (0x4080, 0x40), (0x4101, 0x41), (0x5001, 0x50), (0x5101, 0x51), (0x5201, 0x52), (0x6001, 0x60)] : List (Word × Byte)),
    opcOf p.1 = p.2 ∧ (p.1 ≠ p.2 ++ 0x00#8 ∧ p.1 ≠ p.2 ++ 0x01#8 ∨ p.1 = p.2 ++ 0x01#8 ∧ p.2 ∉ [0x11#8, 0x21, 0x31]) ∧
      ¬ (p.2 = 0x40 ∧ p.1.toNat < 0x4080) := by
  simp [opcOf]

theorem witness_StfBit_cases : (3 : BitVec 3).toNat < 4 ∧ State.reset.stfCnt = 0 ∧
    ({ State.reset with stfCnt := 4 } : State).stfCnt = 4 := by decide

theorem witness_UnsBit_cases :
    let skip : State := { State.reset with unsSkip := true }
    let four : State := { State.reset with unsCnt := 4 }
    let three : State := { State.reset with unsCnt := 3 }
    skip.unsSkip = true ∧ skip.unsCnt = 0 ∧ four.unsSkip = false ∧ four.unsCnt = 4 ∧ three.unsSkip = false ∧
      three.unsCnt.toNat < 4 := by decide

/-- Exactly at the capacity, and one bit over it (tiny's OBITS holds 8 bits). -/
theorem witness_Seq_capacity :
    (stuff (bits "1111111")).length = tiny.cfg.obitsMax ∧ tiny.cfg.obitsMax < (stuff (bits "11111110")).length ∧
      (unstuff (bits "111110111")).length = tiny.cfg.obitsMax ∧ tiny.cfg.obitsMax < (unstuff (bits "000000000")).length := by
  decide

theorem witness_FcsBit_cases : State.reset.fcsCrc.getLsbD 0 = true ∧ State.reset.fcsCrc.getLsbD 0 = !false := by decide

theorem witness_FcsApp_capacity : State.reset.ibits.length + 16 ≤ State.reset.cfg.obitsMax ∧
    tiny.cfg.obitsMax < tiny.ibits.length + 16 := by decide

theorem witness_FcsVal_clauses :
    (withBits (List.replicate 15 false)).ibits.length < 16 ∧
    (List.replicate 16 true).length = 16 ∧ List.replicate 16 true ≠ wireBits16 (~~~(crcBits [])) ∧
    (withBits (List.replicate 16 false)).ibits = [] ++ wireBits16 (~~~(crcBits [])) ∧
    ([] : Bits).length ≤ State.reset.cfg.obitsMax ∧
    (let body := List.replicate 9 false
     ({ tiny with ibits := body ++ wireBits16 (~~~(crcBits body)) } : State).cfg.obitsMax < body.length) := by decide

/-- A base of 1 and of 6 bytes, with and without a suffix, and each kind of failure. -/
theorem witness_CsEnc_clauses :
    (∀ T ∈ [text "A", text "ABCDEF"], (∀ b ∈ T, b.toNat ≤ 0x7F ∧ b ≠ 0x2D) ∧ 1 ≤ T.length ∧ T.length ≤ 6) ∧
    text "ABCDEF-9" = text "ABCDEF" ++ [0x2D, 0x39] ∧ (0x39 : Byte).toNat ≤ 0x7F ∧ (0x39 : Byte) ≠ 0x2D ∧
    0x7F < (0x80 : Byte).toNat ∧ (∃ b ∈ [(0xC0 : Byte), 0x42, 0x43], 0x7F < b.toNat) ∧ 2 ≤ (text "A-B-C").count 0x2D ∧
    ((text "").count 0x2D = 0 ∧ (text "").length = 0) ∧
    ((text "ABCDEFG").count 0x2D = 0 ∧ 6 < (text "ABCDEFG").length) ∧
    (text "A-" = text "A" ++ 0x2D :: [] ∧ ([] : Bytes).length ≠ 1 ∧ (text "A-").count 0x2D = 1) ∧
    (text "-5" = [] ++ 0x2D :: text "5" ∧ (text "-5").count 0x2D = 1) := by decide

theorem witness_CsDec_lengths : (withText (text "1234567")).csIn.length = 7 ∧ (withText (text "123456")).csIn.length ≠ 7 := by
  decide

/-- V-SER-2's descriptor has a header, of 16 bytes: 128 bits. -/
theorem witness_headerIs : headerIs fdSer2
    [0x82, 0x40, 0x40, 0x40, 0x40, 0x40, 0x60, 0x84, 0x40, 0x40, 0x40, 0x40, 0x40, 0x61, 0x03, 0xF0] :=
  ⟨by decide, [#v[0x82, 0x40, 0x40, 0x40, 0x40, 0x40, 0x60], #v[0x84, 0x40, 0x40, 0x40, 0x40, 0x40, 0x60]],
    [0x82, 0x40, 0x40, 0x40, 0x40, 0x40, 0x60, 0x84, 0x40, 0x40, 0x40, 0x40, 0x40], 0x60,
    .cons (by decide) (.cons (by decide) .nil), by decide, by decide⟩

theorem witness_header_capacities : 8 * 16 ≤ State.reset.cfg.obitsMax ∧ tiny.cfg.obitsMax < 8 * 16 := by decide

/-- V-SER-2: the FCS bytes FA D9 of the header above, which fit OBITS after reset and not in the tiny core. -/
theorem witness_HdrSer_fcs : let h : Bytes :=
      [0x82, 0x40, 0x40, 0x40, 0x40, 0x40, 0x60, 0x84, 0x40, 0x40, 0x40, 0x40, 0x40, 0x61, 0x03, 0xF0]
    (0xD9 : Byte) ++ (0xFA : Byte) = ~~~(crcBytes (h ++ fdSer2.info)) ∧
    16 + (stuff (bitsOf (h ++ fdSer2.info ++ [0xFA, 0xD9]))).length = 161 ∧
    161 ≤ State.reset.cfg.obitsMax ∧ tiny.cfg.obitsMax < 161 := by decide +kernel

theorem witness_headerFails : headerFails { fdSer1 with ndigi := 9 } ∧ headerFails { fdSer1 with srcTxt := [] } :=
  ⟨.inl (by decide), .inr ⟨[], by decide, by decide⟩⟩

theorem bodyBits_wire {B : Bytes} (h : extractBody (wire B) = .ok (bitsOf B)) : bodyBits (wire B) (bitsOf B) :=
  extractBody_eq_ok.1 h

/-- No digipeater and no info, both at their lower bounds. -/
theorem witness_HdrDes_success_least : let B := addr14 ++ [0x03, 0xF0] ++ [] ++ [0x00, 0x00]
    bodyBits (wire B) (bitsOf B) ∧ (addr14.take 7).length = 7 ∧ (addr14.drop 7).length = 7 ∧
      B = addr14.take 7 ++ addr14.drop 7 ++ [] ++ [0x03, 0xF0] ++ [] ++ [0x00, 0x00] ∧ ([] : Bytes).length = 7 * 0 ∧
      ([] : Bytes).length ≤ noInfo.cfg.maxInfoBytes ∧ ∀ i, 14 ≤ i → i < 14 + 7 * 0 → ¬ markerAt B i :=
  ⟨bodyBits_wire (by decide +kernel), by decide, by decide, by decide, by decide, by decide, fun i h1 h2 => by omega⟩

/-- Eight digipeaters, the upper bound, and one info byte. -/
theorem witness_HdrDes_success_eight :
    let digis := (List.replicate 8 wide1).flatten
    let B := addr14 ++ digis ++ [0x03, 0xF0] ++ [0x21] ++ [0x00, 0x00]
    bodyBits (wire B) (bitsOf B) ∧ digis.length = 7 * 8 ∧ ([0x21] : Bytes).length ≤ State.reset.cfg.maxInfoBytes ∧
      ∀ i, 14 ≤ i → i < 14 + 7 * 8 → ¬ markerAt B i := by
  refine ⟨bodyBits_wire (by decide +kernel), by decide, by decide, fun i h1 h2 => ?_⟩
  exact (findMarker_eq_some.1 (show findMarker _ = some 70 by decide)).2.2 i h1 h2

/-- V-DES-3 (no flag), V-DES-2 (one flag) and V-DES-7's form (a body of no whole bytes). -/
theorem witness_HdrDes_no_frame : noFlag [] 0 ∧
    (firstFlag (flagBits ++ bitsOf (text "abc")) 0 0 ∧ noFlag (flagBits ++ bitsOf (text "abc")) (0 + 8)) ∧
    bodyBits (flagBits ++ bits "101" ++ flagBits) (bits "101") ∧ (bits "101").length % 8 ≠ 0 :=
  ⟨findFlag_eq_none.1 (by decide), ⟨findFlag_eq_some.1 (by decide), findFlag_eq_none.1 (by decide)⟩,
    extractBody_eq_ok.1 (by decide), by decide⟩

/-- V-DES-13 (1 byte, no integrity check) and V-DES-12 (14 bytes): no marker. -/
theorem witness_HdrDes_no_marker :
    bodyBits (wire [0x55]) (bitsOf [0x55]) ∧ integrityIs [0x55] .notChecked ∧ (∀ k, 14 ≤ k → ¬ markerAt [0x55] k) ∧
    bodyBits (wire addr14) (bitsOf addr14) ∧ integrityIs addr14 .fcsMismatch ∧ ∀ k, 14 ≤ k → ¬ markerAt addr14 k :=
  ⟨bodyBits_wire (by decide), .inl ⟨by decide, rfl⟩, findMarker_eq_none.1 (by decide), bodyBits_wire (by decide +kernel),
    .inr ⟨addr14.take 12, 0x98, 0x61, by decide, by decide +kernel⟩, findMarker_eq_none.1 (by decide)⟩

/-- The markers of V-DES-11 (in the trailer), V-DES-9 (after 3 bytes) and V-DES-10 (after 9 digipeaters), each with the
condition of its clause. -/
theorem witness_HdrDes_malformed :
    (let B := addr14 ++ [0x03, 0xF0]
     bodyBits (wire B) (bitsOf B) ∧ integrityIs B .fcsMismatch ∧ findMarker B = some 14 ∧ B.length < 14 + 4) ∧
    (let B := addr14 ++ [0x40, 0x40, 0x40, 0x03, 0xF0, 0x21, 0x81, 0xD4]
     bodyBits (wire B) (bitsOf B) ∧ integrityIs B .fcsOk ∧ findMarker B = some 17 ∧ (17 - 14) % 7 ≠ 0) ∧
    (let B := addr14 ++ (List.replicate 9 wide1).flatten ++ [0x03, 0xF0, 0x00, 0x00]
     bodyBits (wire B) (bitsOf B) ∧ findMarker B = some 77 ∧ 14 + 7 * 8 < 77) :=
  ⟨⟨bodyBits_wire (by decide +kernel), .inr ⟨addr14, 0x03, 0xF0, by decide, by decide +kernel⟩, by decide, by decide⟩,
    ⟨bodyBits_wire (by decide +kernel), .inr ⟨addr14 ++ [0x40, 0x40, 0x40, 0x03, 0xF0, 0x21], 0x81, 0xD4, by decide,
      by decide +kernel⟩,
      by decide, by decide⟩,
    ⟨bodyBits_wire (by decide +kernel), by decide, by decide⟩⟩

/-- One info byte in a core whose info field holds none. -/
theorem witness_HdrDes_capacity : let B := addr14 ++ [0x03, 0xF0, 0x21, 0x00, 0x00]
    bodyBits (wire B) (bitsOf B) ∧ findMarker B = some 14 ∧ 14 + 4 ≤ B.length ∧ (14 - 14) % 7 = 0 ∧ 14 ≤ 14 + 7 * 8 ∧
      noInfo.cfg.maxInfoBytes < B.length - (14 + 4) :=
  ⟨bodyBits_wire (by decide +kernel), by decide, by decide, by decide, by decide, by decide⟩

theorem witness_illegalWord : illegalWord 0x0000 ∧ illegalWord 0x1102 ∧ illegalWord 0x4080 ∧ illegalWord 0xFF00 := by
  simp [illegalWord, tableRows]

/-- The ends of R75's reserved ranges. -/
theorem witness_reserved_opcodes : ∀ o ∈ ([0x00, 0x03, 0x0F, 0x13, 0x1F, 0x23, 0x2F, 0x35, 0x3F, 0x42, 0x4F, 0x53, 0x5F, 0x61,
    0xFF] : List Byte), opcOf (o ++ 0x00#8) = o := by simp [opcOf]

theorem witness_StepRunsTheWrittenCommand : Instr.stfSeq.wellFormed = true ∧
    (State.reset.queueCommand 0x1200).host = .writeReg 0x00 0x1200 :: [] ∧ decode 0x1200 = .ok .stfSeq :=
  ⟨rfl, rfl, rfl⟩

theorem witness_idle : State.reset.host = [] := rfl

/-- A command that completes, and one that fails, for the frame and failure statements. -/
theorem witness_exec_next : ∃ t, exec .csDec (withText []) = .next t ∧ t.status ≠ .ok ∧ Instr.csDec.wholeSequence = true ∧
    (Instr.stfBit true).incremental = true := ⟨_, rfl, by decide, rfl, rfl⟩

/-- Each kind of host action heads the queue in some state, with a value at and one over the capacity. -/
theorem witness_host_actions :
    ({ State.reset with host := [.powerOnReset] } : State).host = .powerOnReset :: [] ∧
    ({ State.reset with host := [.writeReg 0x04 1] } : State).host = .writeReg 0x04 1 :: [] ∧ (0x04 : Byte) ≠ 0x00 ∧
    ({ State.reset with host := [.readReg 0x0B] } : State).host = .readReg 0x0B :: [] ∧
    ({ State.reset with host := [.readPort .obits] } : State).host = .readPort .obits :: [] ∧
    ({ noInfo with host := [.writePort (.csIn (text "12345678"))] } : State).host
      = .writePort (.csIn (text "12345678")) :: [] ∧ (text "12345678").length ≤ noInfo.cfg.txtMax ∧
    noInfo.cfg.txtMax < (text "123456789").length ∧ noInfo.cfg.maxInfoBytes < (text "!").length ∧
    tiny.cfg.ibitsMax < (List.replicate 65 true).length := by decide +kernel

theorem witness_SavedAccumulator : ∃ a m z, runCommands (.fcsInit :: Pseudo.expand (.fcsBytes [0x31])) State.reset = .next a ∧
    runCommands [.fcsInit, .fcsByte 0x7E] a = .next m ∧
    runCommands (Pseudo.expand (.fcsBytes [0x32])) (regWrite 0x04 (regRead 0x04 a) m) = .next z ∧ z.fcsCrc = 0x5DBC :=
  ⟨_, _, _, rfl, rfl, rfl, by decide +kernel⟩

theorem witness_params_ok : Params.chosen.ok ∧ (⟨16, 726, 8, 0⟩ : Params).ok := by decide

theorem witness_Inv : State.Inv { State.reset with host := [.writeReg 0x00 0x1101] } ∧
    ∃ t, step { State.reset with host := [.writeReg 0x00 0x1101] } = .next t :=
  ⟨⟨by decide, by decide, by decide, by decide⟩, _, rfl⟩

theorem witness_short_runs : ¬ (List.replicate 5 true <:+: bits "0111101111") ∧ (5 : Nat) ≤ 5 ∧ (4 : Nat) < 5 := by decide

theorem witness_stuffCount : stuffCount 0 (bits "11111") = 0 ∧ bits "10" = bits "1" ++ [false] := by decide

theorem witness_StfSeq_ok : ∃ t, exec .stfSeq (withBits (bits "11111")) = .next t ∧ t.status = .ok := ⟨_, rfl, by decide⟩

theorem witness_FcsApp_ok : ∃ t, exec .fcsApp (withBits (bits "101")) = .next t ∧ t.status = .ok ∧ 18 < t.obits.length :=
  ⟨_, rfl, by decide, by decide⟩

/-- The base of V-CS with a digit SSID, for the round trip. -/
theorem witness_CsDecInvertsCsEnc : (∀ b ∈ text "K1ABC", b.toNat ≤ 0x7F ∧ b ≠ 0x2D ∧ ¬ (0x61 ≤ b.toNat ∧ b.toNat ≤ 0x7A)) ∧
    1 ≤ (text "K1ABC").length ∧ (text "K1ABC").length ≤ 6 ∧ (0x39 : Byte).toNat ≤ 0x7F ∧ (0x39 : Byte) ≠ 0x2D ∧
    ¬ (0x61 ≤ (0x39 : Byte).toNat ∧ (0x39 : Byte).toNat ≤ 0x7A) := by decide

theorem witness_CsEnc_next : ∃ t, exec (.csEnc 0x30) (withText (text "APRS")) = .next t := ⟨_, rfl⟩

/-- V-SER-2 is a UI frame within every capacity that HDR.SER accepts. -/
theorem witness_HdrSer_ok : ∃ t, exec .hdrSer { State.reset with fd := fdSer2 } = .next t ∧ t.status = .ok ∧
    fdSer2.ctrl = 0x03 ∧ fdSer2.pid = 0xF0 ∧ fdSer2.info.length ≤ State.reset.cfg.maxInfoBytes ∧ State.reset.cfg.ok := by
  have h : (resultState (exec .hdrSer { State.reset with fd := fdSer2 })).map (·.status) = some .ok := by decide +kernel
  obtain ⟨t, ht, hs⟩ := Option.map_eq_some_iff.1 h
  exact ⟨t, resultState_eq_some.1 ht, hs, by decide, by decide, by decide, by decide⟩

theorem witness_OneInfoByte : (0x21 : Byte) ≠ 0x20 ∧
    (∃ t, exec .hdrFcsf { State.reset with fd := { fdSer2 with info := [] ++ 0x21 :: [] } } = .next t ∧ t.status = .ok) ∧
    ∃ t, exec .hdrFcsf { State.reset with fd := { fdSer2 with info := [] ++ 0x20 :: [] } } = .next t ∧ t.status = .ok := by
  have h : ∀ v ∈ [(0x21 : Byte), 0x20],
      (resultState (exec .hdrFcsf { State.reset with fd := { fdSer2 with info := [] ++ v :: [] } })).map (·.status)
        = some .ok := by decide +kernel
  refine ⟨by decide, ?_, ?_⟩
  · obtain ⟨t, ht, hs⟩ := Option.map_eq_some_iff.1 (h 0x21 (by simp))
    exact ⟨t, resultState_eq_some.1 ht, hs⟩
  · obtain ⟨t, ht, hs⟩ := Option.map_eq_some_iff.1 (h 0x20 (by simp))
    exact ⟨t, resultState_eq_some.1 ht, hs⟩

end Sys2Proof.Tests
end

/-! PROOFS. What a command can write, the invariant of the reachable states (O42), the completion of every command (O27), and the
length of what the serializer emits (O56). -/

namespace Sys2Proof.Machine

open Sys2Proof

/-! ## The outcomes of the commands with more than one branch -/

/-- HDR.HDR fails on a bad header, and otherwise emits the header's bits if they fit (R206). -/
theorem execHdrHdr_cases (s : State) :
    (s.fd.header = none ∧ execHdrHdr s = raiseObits .structuralError s) ∨
    ∃ h, s.fd.header = some h ∧ execHdrHdr s = emitObits (bitsOf h) s := by
  unfold execHdrHdr
  cases s.fd.header with
  | none => exact .inl ⟨rfl, rfl⟩
  | some h => exact .inr ⟨h, rfl, rfl⟩

/-- HDR.FCSF fails on a bad header, and otherwise writes FD.FCS (R207). -/
theorem execHdrFcsf_cases (s : State) :
    (s.fd.header = none ∧ execHdrFcsf s = raise .structuralError s) ∨
    ∃ h, s.fd.header = some h ∧ execHdrFcsf s = complete (s.setFdFcs (frameFcs h s.fd.info)) := by
  unfold execHdrFcsf
  cases s.fd.header with
  | none => exact .inl ⟨rfl, rfl⟩
  | some h => exact .inr ⟨h, rfl, rfl⟩

/-- HDR.SER fails on a bad header or a frame too long for OBITS, and otherwise writes OBITS and FD.FCS (R208). -/
theorem execHdrSer_cases (s : State) :
    (s.fd.header = none ∧ execHdrSer s = raiseObits .structuralError s) ∨
    ∃ h, s.fd.header = some h ∧
      ((s.cfg.obitsMax < (wire (frameBytes h s.fd.info)).length ∧ execHdrSer s = raiseObits .capacity s) ∨
       ((wire (frameBytes h s.fd.info)).length ≤ s.cfg.obitsMax ∧
        execHdrSer s = complete ((s.setObits (wire (frameBytes h s.fd.info))).setFdFcs (frameFcs h s.fd.info)))) := by
  unfold execHdrSer
  cases s.fd.header with
  | none => exact .inl ⟨rfl, rfl⟩
  | some h =>
    refine .inr ⟨h, rfl, ?_⟩
    by_cases hl : s.cfg.obitsMax < (wire (frameBytes h s.fd.info)).length
    · exact .inl ⟨hl, if_pos hl⟩
    · exact .inr ⟨Nat.not_lt.1 hl, if_neg hl⟩

/-- FCS.VAL fails on a short input or a wrong trailer, and otherwise emits the body if it fits (R149). -/
theorem execFcsVal_cases (s : State) :
    execFcsVal s = raiseObits .checksumMismatch s ∨ execFcsVal s = emitObits (fcsBody s.ibits) s := by
  unfold execFcsVal
  split
  · exact .inl rfl
  · split
    · exact .inl rfl
    · exact .inr rfl

/-- CS.ENC writes CS_OUT: the zero address on failure, the encoded one otherwise (R173). -/
theorem execCsEnc_cases (c : Byte) (s : State) :
    execCsEnc c s = raiseCsOut .structuralError s ∨ ∃ r, execCsEnc c s = complete (s.setCsOut r) := by
  unfold execCsEnc
  cases encodeCallsign s.csIn c with
  | none => exact .inl rfl
  | some r => exact .inr ⟨r, rfl⟩

/-- CS.DEC writes CS_OUT: the zero address on a wrong length, the decoded one otherwise (R174). -/
theorem execCsDec_cases (s : State) :
    execCsDec s = raiseCsOut .structuralError s ∨ ∃ r, execCsDec s = complete (s.setCsOut r) := by
  unfold execCsDec
  split
  · exact .inl rfl
  · exact .inr ⟨_, rfl⟩

/-! ## What a command can write -/

/-- `CoreWrite s t`: from `s` some command, STATUS apart, leaves `t`. Every result that reaches OBITS fits it. -/
inductive CoreWrite (s : State) : State → Prop where
  | nothing : CoreWrite s s
  | coreCleared : CoreWrite s s.clearCoreState
  | stfCleared : CoreWrite s (s.setStfCnt 0)
  | stuffed (b : Bool) : CoreWrite s ((s.setStfCnt (BitVec.ofNat 3 (stuffStep s.stfCnt.toNat b).1)).setBres
      (Bres.ofBits (stuffStep s.stfCnt.toNat b).2))
  | unsCleared : CoreWrite s (s.setUns 0 false)
  | unstuffed (b : Bool) : CoreWrite s ((s.setUns (BitVec.ofNat 3 (unstuffStep s.unsCnt.toNat s.unsSkip b).cnt)
      (unstuffStep s.unsCnt.toNat s.unsSkip b).skip).setBres (Bres.ofBits (unstuffStep s.unsCnt.toNat s.unsSkip b).out))
  | fcsCrc (v : Word) : CoreWrite s (s.setFcsCrc v)
  | obits {r : Bits} (h : r.length ≤ s.cfg.obitsMax) : CoreWrite s (s.setObits r)
  | frame {r : Bits} (h : r.length ≤ s.cfg.obitsMax) (v : Word) : CoreWrite s ((s.setObits r).setFdFcs v)
  | csOut (r : Addr) : CoreWrite s (s.setCsOut r)
  | fdFcs (v : Word) : CoreWrite s (s.setFdFcs v)
  | parsed : CoreWrite s (s.setRx (parse s.cfg.maxInfoBytes s.ibits))

/-- The outcome `r` of a command issued in `s` is a next state, left by one of the writes and a write of STATUS. -/
def Completes (s : State) (r : Result) : Prop := ∃ t E, CoreWrite s t ∧ r = .next (t.setStatus E)

theorem complete_completes {s t : State} (h : CoreWrite s t) : Completes s (complete t) := ⟨t, .ok, h, rfl⟩

theorem raise_completes (E : Status) (s : State) : Completes s (raise E s) := ⟨s, E, .nothing, rfl⟩

theorem raiseObits_completes (E : Status) (s : State) : Completes s (raiseObits E s) :=
  ⟨s.setObits [], E, .obits (Nat.zero_le _), rfl⟩

theorem raiseCsOut_completes (E : Status) (s : State) : Completes s (raiseCsOut E s) :=
  ⟨s.setCsOut Addr.zero, E, .csOut _, rfl⟩

theorem emitObits_completes (r : Bits) (s : State) : Completes s (emitObits r s) := by
  unfold emitObits
  split
  · exact raiseObits_completes _ _
  · next h => exact complete_completes (.obits (Nat.not_lt.1 h))

/-- Every command, in every state, completes (R18). -/
theorem exec_completes (i : Instr) (s : State) : Completes s (exec i s) := by
  cases i with
  | rst => exact complete_completes .coreCleared
  | nop => exact complete_completes .nothing
  | stfClr => exact complete_completes .stfCleared
  | stfBit b => exact complete_completes (.stuffed b)
  | stfSeq => exact emitObits_completes _ s
  | unsClr => exact complete_completes .unsCleared
  | unsBit b => exact complete_completes (.unstuffed b)
  | unsSeq => exact emitObits_completes _ s
  | fcsInit => exact complete_completes (.fcsCrc _)
  | fcsBit b => exact complete_completes (.fcsCrc _)
  | fcsByte v => exact complete_completes (.fcsCrc _)
  | fcsApp => exact emitObits_completes _ s
  | fcsVal =>
    show Completes s (execFcsVal s)
    obtain e | e := execFcsVal_cases s <;> rw [e]
    · exact raiseObits_completes _ s
    · exact emitObits_completes _ s
  | csEnc c =>
    show Completes s (execCsEnc c s)
    obtain e | ⟨r, e⟩ := execCsEnc_cases c s <;> rw [e]
    · exact raiseCsOut_completes _ s
    · exact complete_completes (.csOut r)
  | csDec =>
    show Completes s (execCsDec s)
    obtain e | ⟨r, e⟩ := execCsDec_cases s <;> rw [e]
    · exact raiseCsOut_completes _ s
    · exact complete_completes (.csOut r)
  | hdrHdr =>
    show Completes s (execHdrHdr s)
    obtain ⟨-, e⟩ | ⟨h, -, e⟩ := execHdrHdr_cases s <;> rw [e]
    · exact raiseObits_completes _ s
    · exact emitObits_completes _ s
  | hdrFcsf =>
    show Completes s (execHdrFcsf s)
    obtain ⟨-, e⟩ | ⟨h, -, e⟩ := execHdrFcsf_cases s <;> rw [e]
    · exact raise_completes _ s
    · exact complete_completes (.fdFcs _)
  | hdrSer =>
    show Completes s (execHdrSer s)
    obtain ⟨-, e⟩ | ⟨h, -, ⟨-, e⟩ | ⟨hl, e⟩⟩ := execHdrSer_cases s <;> rw [e]
    · exact raiseObits_completes _ s
    · exact raiseObits_completes _ s
    · exact complete_completes (.frame hl _)
  | hdrDes => exact ⟨_, _, .parsed, execHdrDes_eq s⟩

/-- No write of a command touches the model's own fields (logs 1, 2 and 3). -/
theorem CoreWrite.keeps_own_fields {s t : State} (h : CoreWrite s t) :
    t.cfg = s.cfg ∧ t.host = s.host ∧ t.reply = s.reply := by
  cases h <;> exact ⟨rfl, rfl, rfl⟩

/-- Settles O27: `exec_completes`, and an illegal word completes too. -/
theorem everyCommandCompletes : Obligations.EveryCommandCompletes := by
  unfold Obligations.EveryCommandCompletes
  refine ⟨fun i s => ?_, fun cw s => ?_⟩
  · obtain ⟨t, E, hw, e⟩ := exec_completes i s
    exact ⟨t.setStatus E, e, hw.keeps_own_fields⟩
  · obtain ⟨i, -, e⟩ | ⟨_, -, e⟩ := issue_cases cw s
    · obtain ⟨t, E, -, e'⟩ := exec_completes i s
      exact ⟨t.setStatus E, e.trans e'⟩
    · exact ⟨_, e⟩

/-! ## The values the units and the deserializer leave -/

/-- BRES as `State.unitsOk` asks for it (R25). -/
abbrev Bres.Ok (b : Bres) : Prop := b.n.toNat ≤ 2 ∧ (b.n = 0 → b.b0 = false) ∧ b.b1 = false

/-- At most two bits, the second of them 0, make a BRES that a unit can leave. -/
theorem Bres.ofBits_ok {o : Bits} (hn : o.length ≤ 2) (h1 : o.getD 1 false = false) : (Bres.ofBits o).Ok := by
  match o, hn, h1 with
  | [], _, _ => decide
  | [x], _, _ => cases x <;> decide
  | [x, y], _, h1 => obtain rfl : y = false := h1; cases x <;> decide

/-- A stuffing step emits its bit, and after it at most the stuffed 0 (R100). -/
theorem stuffStep_bits (cnt : Nat) (x : Bool) : (stuffStep cnt x).2 = [x, false] ∨ (stuffStep cnt x).2 = [x] := by
  unfold stuffStep
  by_cases h : (if x then cnt + 1 else 0) = stuffRun
  · exact .inl (by simp [h])
  · exact .inr (by simp [h])

theorem stuffStep_bres_ok (cnt : Nat) (x : Bool) : (Bres.ofBits (stuffStep cnt x).2).Ok := by
  obtain e | e := stuffStep_bits cnt x <;> rw [e] <;> exact Bres.ofBits_ok (by simp) rfl

theorem unstuffStep_bres_ok {cnt : Nat} {skip : Bool} (h : cnt ≤ 4) (x : Bool) :
    (Bres.ofBits (unstuffStep cnt skip x).out).Ok := by
  obtain ⟨-, -, hl⟩ := unstuffStep_inv (skip := skip) h x
  exact Bres.ofBits_ok (by omega) (List.getD_eq_default _ _ hl)

/-- A count 0..4 is held in 3 bits as it is (R20). -/
theorem toNat_ofNat_three {n : Nat} (h : n ≤ 4) : (BitVec.ofNat 3 n).toNat ≤ 4 := by
  rw [BitVec.toNat_ofNat, Nat.mod_eq_of_lt (by omega)]; exact h

theorem Rx.sentinel_good {E : Status} {f : FcsSt} (maxInfo : Nat)
    (hE : E ∈ [Status.ok, .frameNotFound, .headerMarkerNotFound, .malformed, .capacity])
    (hf : E = .ok ∨ E = .frameNotFound → f = .notChecked) : (Rx.sentinel E f).good maxInfo :=
  ⟨Nat.zero_le _, fun h => (by simp at h), fun _ => ⟨rfl, hE, hf⟩⟩

theorem digisOf_getElem (B : Bytes) (k i : Nat) (h : i < 8) :
    (digisOf B k)[i] = if i < k then decodeAddr (addrAt B (14 + 7 * i)) else Addr.zero := by
  simp [digisOf]

/-- A body with the marker at `j` and k ≤ 8 digipeaters decodes to a UI frame of 7-bit codes (R237, R238). -/
theorem Rx.decoded_validOk {B : Bytes} {j k : Nat} (f : FcsSt) (hm : markerAt B j) (hk : k ≤ 8) :
    (Rx.decoded B j k f).validOk := by
  obtain ⟨hctrl, hpid⟩ := markerAt_bytes hm
  have hn : (BitVec.ofNat 4 k).toNat = k := by rw [BitVec.toNat_ofNat]; omega
  refine ⟨rfl, hctrl, hpid, hn.le.trans hk, fun i hi => ?_, fun i => ⟨?_, ?_⟩, fun i l => ?_⟩
  · have hi' : ¬ i.val < k := Nat.not_lt.2 (hn ▸ hi)
    exact (digisOf_getElem B k i i.isLt).trans (if_neg hi')
  · exact decodeAddr_ascii _ i i.isLt
  · exact decodeAddr_ascii _ i i.isLt
  · show (digisOf B k)[i.val][l.val].toNat ≤ 0x7F
    rw [digisOf_getElem]
    split
    · exact decodeAddr_ascii _ l l.isLt
    · simp

theorem Rx.decoded_good {B : Bytes} {j k maxInfo : Nat} (f : FcsSt) (hm : markerAt B j) (hk : k ≤ 8)
    (hl : B.length - (j + 4) ≤ maxInfo) : (Rx.decoded B j k f).good maxInfo := by
  have hinfo : (slice B (j + 2) (B.length - 2)).length ≤ maxInfo := by simp [slice]; omega
  exact ⟨hinfo, fun _ => Rx.decoded_validOk f hm hk, fun h => nomatch h⟩

/-- The codes with which the split of a body fails (R241). -/
theorem splitBody_error_mem {maxInfo : Nat} {B : Bytes} {E : Status} (h : splitBody maxInfo B = .error E) :
    E ∈ [Status.headerMarkerNotFound, .malformed, .capacity] := by
  obtain ⟨e, -⟩ | ⟨j, -, -, -, ⟨e, -⟩ | ⟨-, -, -, ⟨e, -⟩ | ⟨e, -⟩⟩⟩ := splitBody_cases maxInfo B <;>
    rw [e] at h <;> cases h <;> decide

theorem splitBody_ok_good {maxInfo : Nat} {B : Bytes} {r : Rx} (h : splitBody maxInfo B = .ok r) : r.good maxInfo := by
  obtain ⟨e, -⟩ | ⟨j, -, hm, -, ⟨e, -⟩ | ⟨-, -, hj, ⟨e, -⟩ | ⟨e, hl⟩⟩⟩ := splitBody_cases maxInfo B <;>
    rw [e] at h <;> cases h
  exact Rx.decoded_good _ hm (by omega) hl

/-- A decode ends with a UI frame or the whole sentinel (R230, R239). -/
theorem parse_good (maxInfo : Nat) (s : Bits) : (parse maxInfo s).good maxInfo := by
  obtain ⟨e, -⟩ | ⟨u, -, -, e⟩ | ⟨B, -, ⟨E, hs, e⟩ | ⟨r, hs, e⟩⟩ := parse_cases maxInfo s <;> rw [e]
  · exact Rx.sentinel_good _ (by decide) fun _ => rfl
  · exact Rx.sentinel_good _ (by decide) fun _ => rfl
  · have hE := splitBody_error_mem hs
    refine Rx.sentinel_good _ (List.mem_append_right [Status.ok, .frameNotFound] hE) ?_
    rintro (rfl | rfl) <;> simp at hE
  · exact splitBody_ok_good hs

/-! ## Each write keeps the invariant -/

/-- The texts and the info field of a frame descriptor are within their capacities, as `State.portsFit` asks (R31). -/
abbrev Fd.Fits (fd : Fd) (p : Params) : Prop :=
  fd.destTxt.length ≤ p.txtMax ∧ fd.srcTxt.length ≤ p.txtMax ∧ (∀ i : Fin 8, fd.digiTxt[i].length ≤ p.txtMax)
    ∧ fd.info.length ≤ p.maxInfoBytes

namespace State.Inv

variable {s : State} (h : s.Inv)
include h

theorem fdFits : s.fd.Fits s.cfg := by
  obtain ⟨-, -, -, hfd⟩ := h.portsFit
  exact hfd

theorem setStatus (v : Status) : (s.setStatus v).Inv := ⟨h.cfgOk, h.unitsOk, h.portsFit, h.rxGood⟩

theorem setFcsCrc (v : Word) : (s.setFcsCrc v).Inv := ⟨h.cfgOk, h.unitsOk, h.portsFit, h.rxGood⟩

theorem setCsOut (v : Addr) : (s.setCsOut v).Inv := ⟨h.cfgOk, h.unitsOk, h.portsFit, h.rxGood⟩

theorem setHost (v : List HostAct) : (s.setHost v).Inv := ⟨h.cfgOk, h.unitsOk, h.portsFit, h.rxGood⟩

theorem setReply (v : Option HostVal) : (s.setReply v).Inv := ⟨h.cfgOk, h.unitsOk, h.portsFit, h.rxGood⟩

theorem setStfCnt {v : BitVec 3} (hv : v.toNat ≤ 4) : (s.setStfCnt v).Inv := by
  obtain ⟨-, hrest⟩ := h.unitsOk
  exact ⟨h.cfgOk, ⟨hv, hrest⟩, h.portsFit, h.rxGood⟩

theorem setUns {c : BitVec 3} {k : Bool} (hc : c.toNat ≤ 4) (hk : k = true → c = 0) : (s.setUns c k).Inv := by
  obtain ⟨hstf, -, -, hbres⟩ := h.unitsOk
  exact ⟨h.cfgOk, ⟨hstf, hc, hk, hbres⟩, h.portsFit, h.rxGood⟩

theorem setBres {b : Bres} (hb : b.Ok) : (s.setBres b).Inv := by
  obtain ⟨hstf, huns, hskip, -⟩ := h.unitsOk
  exact ⟨h.cfgOk, ⟨hstf, huns, hskip, hb⟩, h.portsFit, h.rxGood⟩

theorem setIbits {v : Bits} (hv : v.length ≤ s.cfg.ibitsMax) : (s.setIbits v).Inv := by
  obtain ⟨-, hrest⟩ := h.portsFit
  exact ⟨h.cfgOk, h.unitsOk, ⟨hv, hrest⟩, h.rxGood⟩

theorem setObits {v : Bits} (hv : v.length ≤ s.cfg.obitsMax) : (s.setObits v).Inv := by
  obtain ⟨hi, -, hrest⟩ := h.portsFit
  exact ⟨h.cfgOk, h.unitsOk, ⟨hi, hv, hrest⟩, h.rxGood⟩

theorem setCsIn {v : Bytes} (hv : v.length ≤ s.cfg.txtMax) : (s.setCsIn v).Inv := by
  obtain ⟨hi, ho, -, hfd⟩ := h.portsFit
  exact ⟨h.cfgOk, h.unitsOk, ⟨hi, ho, hv, hfd⟩, h.rxGood⟩

theorem setFd {v : Fd} (hv : v.Fits s.cfg) : (s.setFd v).Inv := by
  obtain ⟨hi, ho, hc, -⟩ := h.portsFit
  exact ⟨h.cfgOk, h.unitsOk, ⟨hi, ho, hc, hv⟩, h.rxGood⟩

theorem setFdFcs (v : Word) : (s.setFdFcs v).Inv := h.setFd h.fdFits

theorem setRx {r : Rx} (hr : r.good s.cfg.maxInfoBytes) : (s.setRx r).Inv := ⟨h.cfgOk, h.unitsOk, h.portsFit, hr⟩

/-- RST's clearing keeps the invariant: each reset value is an admissible one (R270). -/
theorem clearCoreState : s.clearCoreState.Inv := by
  have hunits := (((h.setStfCnt (v := 0) (by decide)).setUns (c := 0) (k := false) (by decide) (by decide)).setFcsCrc
    crcSeed).setBres (b := Bres.reset) (by decide)
  have hports := ((hunits.setObits (v := []) (Nat.zero_le _)).setCsOut Addr.zero).setFdFcs 0
  exact hports.setRx (Rx.sentinel_good (E := .ok) (f := .notChecked) _ (by decide) fun _ => rfl)

theorem powerOnReset : (powerOnReset s).Inv := by
  have hfd : Fd.reset.Fits s.cfg :=
    ⟨Nat.zero_le _, Nat.zero_le _, fun i => by simp [Fd.reset], Nat.zero_le _⟩
  exact (((h.clearCoreState.setIbits (v := []) (Nat.zero_le _)).setCsIn (v := []) (Nat.zero_le _)).setFd hfd).setStatus .ok

/-- A host write to a register writes FCS_CRC or a field of FD that has no capacity (R27). -/
theorem regWrite (n : Byte) (v : Word) : (regWrite n v s).Inv := by
  unfold Machine.regWrite
  split
  · exact h.setFcsCrc v
  · exact h.setFd h.fdFits
  · exact h.setFd h.fdFits
  · exact h.setFd h.fdFits
  · exact h

/-- A host write of a port that its capacity admits keeps the invariant (R52). -/
theorem portWrite {w : PortWrite} (hw : portWriteFits w s.cfg = true) : (portWrite w s).Inv := by
  obtain ⟨hdest, hsrc, hdigi, hinfo⟩ := h.fdFits
  cases w with
  | ibits v => exact h.setIbits (of_decide_eq_true hw)
  | csIn v => exact h.setCsIn (of_decide_eq_true hw)
  | fdDestTxt v => exact h.setFd ⟨of_decide_eq_true hw, hsrc, hdigi, hinfo⟩
  | fdSrcTxt v => exact h.setFd ⟨hdest, of_decide_eq_true hw, hdigi, hinfo⟩
  | fdDigiTxt i v =>
    refine h.setFd ⟨hdest, hsrc, fun k => ?_, hinfo⟩
    show ((s.fd.digiTxt.set i v)[k.val]).length ≤ s.cfg.txtMax
    rw [Vector.getElem_set]
    split
    · exact of_decide_eq_true hw
    · exact hdigi k
  | fdNdigi v => exact h.setFd h.fdFits
  | fdCtrl v => exact h.setFd h.fdFits
  | fdPid v => exact h.setFd h.fdFits
  | fdInfo v => exact h.setFd ⟨hdest, hsrc, hdigi, of_decide_eq_true hw⟩

/-- Every write of a command keeps the invariant (R21, R22, R25, R30 to R32). -/
theorem coreWrite {t : State} (hw : CoreWrite s t) : t.Inv := by
  cases hw with
  | nothing => exact h
  | coreCleared => exact h.clearCoreState
  | stfCleared => exact h.setStfCnt (by decide)
  | stuffed b =>
    obtain ⟨hstf, -⟩ := h.unitsOk
    exact (h.setStfCnt (toNat_ofNat_three (stuffStep_count_le hstf b))).setBres (stuffStep_bres_ok _ b)
  | unsCleared => exact h.setUns (by decide) (by decide)
  | unstuffed b =>
    obtain ⟨-, huns, -⟩ := h.unitsOk
    obtain ⟨hcnt, hskip, -⟩ := unstuffStep_inv (skip := s.unsSkip) huns b
    exact (h.setUns (toNat_ofNat_three hcnt) fun hk => congrArg (BitVec.ofNat 3) (hskip hk)).setBres (unstuffStep_bres_ok huns b)
  | fcsCrc v => exact h.setFcsCrc v
  | obits hr => exact h.setObits hr
  | frame hr v => exact (h.setObits hr).setFdFcs v
  | csOut r => exact h.setCsOut r
  | fdFcs v => exact h.setFdFcs v
  | parsed => exact h.setRx (parse_good _ _)

/-- Every command keeps the invariant. -/
theorem exec {i : Instr} {t : State} (ht : exec i s = .next t) : t.Inv := by
  obtain ⟨u, E, hw, e⟩ := exec_completes i s
  cases ht.symm.trans e
  exact (h.coreWrite hw).setStatus E

/-- The issue of any word keeps the invariant, an illegal one included (R272). -/
theorem issue {cw : Word} {t : State} (ht : issue cw s = .next t) : t.Inv := by
  obtain ⟨i, -, e⟩ | ⟨_, -, e⟩ := issue_cases cw s
  · exact h.exec (e.symm.trans ht)
  · cases ht.symm.trans e
    exact h.setStatus .illegalCommand

end State.Inv

/-- Settles O42, by the cases of a step: each kind of host action keeps the invariant. -/
theorem everyStepKeepsInvariant : Obligations.EveryStepKeepsInvariant := by
  unfold Obligations.EveryStepKeepsInvariant
  intro s t h ht
  obtain ⟨-, rfl⟩ | ⟨rest, hact⟩ := step_cases ht
  · exact h
  · have hr := h.setHost rest
    obtain ⟨-, rfl⟩ | ⟨cw, -, ht⟩ | ⟨n, v, -, -, rfl⟩ | ⟨n, -, rfl⟩ | ⟨w, -, hw, rfl⟩ | ⟨p, -, rfl⟩ := hact
    · exact hr.powerOnReset
    · exact hr.issue ht
    · exact hr.regWrite n v
    · exact hr.setReply _
    · exact hr.portWrite hw
    · exact hr.setReply _

/-! ## The length of what the serializer emits -/

/-- From a count of ones already seen, at most one 0 is stuffed for every five bits (R104 item 3). -/
theorem stuffFrom_length_le {cnt : Nat} (h : cnt ≤ 4) (s : Bits) :
    (stuffFrom cnt s).length ≤ s.length + (s.length + cnt) / 5 := by
  induction s generalizing cnt with
  | nil => exact Nat.zero_le _
  | cons x s ih =>
    rw [stuffFrom_cons]
    obtain ⟨-, e⟩ | ⟨-, h4, e⟩ | ⟨-, rfl, e⟩ := stuffStep_cases h x <;>
      simp only [e, List.length_append, List.length_cons, List.length_nil]
    · have := ih (cnt := 0) (by omega); omega
    · have := ih (cnt := cnt + 1) (by omega); omega
    · have := ih (cnt := 0) (by omega); omega

theorem stuff_length_le (s : Bits) : (stuff s).length ≤ s.length + s.length / 5 :=
  stuffFrom_length_le (Nat.zero_le 4) s

/-- Each encoded text is one address of 7 bytes (R201). -/
theorem encodeTexts_length {L : List Bytes} {A : Bytes} (h : encodeTexts L = some A) : A.length = 7 * L.length := by
  induction L generalizing A with
  | nil => cases h; rfl
  | cons T L ih =>
    rw [encodeTexts] at h
    split at h
    · next e A' he hA =>
      cases h
      simp [ih hA]; omega
    · cases h

@[simp] theorem markEnd_length : ∀ A : Bytes, (markEnd A).length = A.length
  | [] | [_] => rfl
  | _ :: b :: A => congrArg (· + 1) (markEnd_length (b :: A))

/-- A header is at most 10 addresses and two bytes (R202). -/
theorem header_length_le {fd : Fd} {h : Bytes} (hh : fd.header = some h) : h.length ≤ 72 := by
  unfold Fd.header Fd.addresses at hh
  split at hh
  · cases hh
  · next hn =>
    simp only [maxDigis] at hn
    obtain ⟨A, hA, rfl⟩ : ∃ A, encodeTexts fd.texts = some A ∧ markEnd A ++ [fd.ctrl, fd.pid] = h := by simpa using hh
    have hl := encodeTexts_length hA
    simp [Fd.texts] at hl ⊢
    omega

/-- The wire form of n bytes: two flags, 8n bits, and at most one 0 for every five of them (R205). -/
theorem wire_length_le (B : Bytes) : (wire B).length ≤ 16 + 8 * B.length + 8 * B.length / 5 := by
  have := stuff_length_le (bitsOf B)
  simp [wire, flagBits] at this ⊢
  omega

/-- A frame whose info field is within its capacity is at most WIRE_MAX bits on the wire (R8, R205). -/
theorem wire_frame_length_le {s : State} {h : Bytes} (hh : s.fd.header = some h)
    (hi : s.fd.info.length ≤ s.cfg.maxInfoBytes) : (wire (frameBytes h s.fd.info)).length ≤ s.cfg.wireMax := by
  have hw := wire_length_le (frameBytes h s.fd.info)
  have hl := header_length_le hh
  have hn : (frameBytes h s.fd.info).length = h.length + s.fd.info.length + 2 := by simp [frameBytes, wordBytes]; omega
  unfold Params.wireMax
  omega

/-- A header's bits are fewer than WIRE_MAX (R8, R206). -/
theorem header_bits_length_le {fd : Fd} {h : Bytes} (hh : fd.header = some h) (p : Params) :
    (bitsOf h).length ≤ p.wireMax := by
  have hl := header_length_le hh
  rw [bitsOf_length]
  unfold Params.wireMax
  omega

/-- Settles O56: under R8's bounds the capacity branches of HDR.SER and HDR.HDR are closed by the length bounds. -/
theorem serializerFitsWireMax : Obligations.SerializerFitsWireMax := by
  unfold Obligations.SerializerFitsWireMax
  intro s t hcfg hi
  obtain ⟨-, hobits, -⟩ := hcfg
  refine ⟨fun ht => ?_, fun ht => ?_⟩
  · change execHdrSer s = .next t at ht
    obtain ⟨-, e⟩ | ⟨h, hh, ⟨hlt, -⟩ | ⟨-, e⟩⟩ := execHdrSer_cases s
    · obtain rfl := raiseObits_eq_next.1 (e.symm.trans ht)
      simp
    · exact absurd hlt (Nat.not_lt.2 ((wire_frame_length_le hh hi).trans hobits))
    · obtain rfl := complete_eq_next.1 (e.symm.trans ht)
      exact ⟨by simp, fun _ => wire_frame_length_le hh hi⟩
  · change execHdrHdr s = .next t at ht
    obtain ⟨-, e⟩ | ⟨h, hh, e⟩ := execHdrHdr_cases s
    · obtain rfl := raiseObits_eq_next.1 (e.symm.trans ht)
      simp
    · rw [e, emitObits_fits ((header_bits_length_le hh s.cfg).trans hobits)] at ht
      cases ht
      simp

end Sys2Proof.Machine

/-! PROOFS. Which state each command writes and reads: the writers of every piece of state (O28), the blindness of the
whole-sequence commands to the unit registers (O29, O33) and of every command to STATUS (O32); what the host's accesses do (O36
to O39); the reset state (O41). -/

namespace Sys2Proof.Machine

open Sys2Proof

/-! ## The writers of each piece of state -/

/-- The write of STATUS apart, what command `i` can make of `s`: only the pieces of state that name `i` as a writer are replaced
(R21 to R25, R30 to R32). -/
def WritesOf (i : Instr) (s t : State) : Prop :=
  match i with
  | .rst => t = s.clearCoreState
  | .nop => t = s
  | .stfClr => ∃ c, t = s.setStfCnt c
  | .stfBit _ => ∃ c b, t = (s.setStfCnt c).setBres b
  | .unsClr => ∃ c k, t = s.setUns c k
  | .unsBit _ => ∃ c k b, t = (s.setUns c k).setBres b
  | .fcsInit | .fcsBit _ | .fcsByte _ => ∃ v, t = s.setFcsCrc v
  | .stfSeq | .unsSeq | .fcsApp | .fcsVal | .hdrHdr => ∃ r, t = s.setObits r
  | .csEnc _ | .csDec => ∃ r, t = s.setCsOut r
  | .hdrFcsf => ∃ v, t = s.setFdFcs v
  | .hdrSer => ∃ r v, t = (s.setObits r).setFdFcs v
  | .hdrDes => ∃ r, t = s.setRx r

/-- `emitObits` writes OBITS, with the result or with nothing (R103, R304). -/
theorem emitObits_writes (r : Bits) (s : State) :
    ∃ u E, (∃ r', u = s.setObits r') ∧ emitObits r s = .next (u.setStatus E) := by
  obtain h | h := Nat.lt_or_ge s.cfg.obitsMax r.length
  · exact ⟨_, _, ⟨_, rfl⟩, emitObits_overflows h⟩
  · exact ⟨_, _, ⟨_, rfl⟩, emitObits_fits h⟩

/-- Every command completes, and writes STATUS and what `WritesOf` allows it. -/
theorem exec_writes (i : Instr) (s : State) : ∃ u E, WritesOf i s u ∧ exec i s = .next (u.setStatus E) := by
  cases i with
  | rst | nop => exact ⟨_, _, rfl, rfl⟩
  | stfClr | fcsInit | fcsBit | fcsByte => exact ⟨_, _, ⟨_, rfl⟩, rfl⟩
  | stfBit | unsClr => exact ⟨_, _, ⟨_, _, rfl⟩, rfl⟩
  | unsBit => exact ⟨_, _, ⟨_, _, _, rfl⟩, rfl⟩
  | stfSeq | unsSeq | fcsApp => exact emitObits_writes _ s
  | fcsVal =>
    obtain e | e := execFcsVal_cases s
    · exact ⟨_, _, ⟨_, rfl⟩, e⟩
    · rw [exec, e]
      exact emitObits_writes _ s
  | csEnc c => obtain e | ⟨r, e⟩ := execCsEnc_cases c s <;> exact ⟨_, _, ⟨_, rfl⟩, e⟩
  | csDec => obtain e | ⟨r, e⟩ := execCsDec_cases s <;> exact ⟨_, _, ⟨_, rfl⟩, e⟩
  | hdrHdr =>
    obtain ⟨-, e⟩ | ⟨h, -, e⟩ := execHdrHdr_cases s
    · exact ⟨_, _, ⟨_, rfl⟩, e⟩
    · rw [exec, e]
      exact emitObits_writes _ s
  | hdrFcsf =>
    obtain ⟨-, e⟩ | ⟨h, -, e⟩ := execHdrFcsf_cases s
    · exact ⟨s, _, ⟨s.fd.fcs, rfl⟩, e⟩
    · exact ⟨_, _, ⟨_, rfl⟩, e⟩
  | hdrSer =>
    obtain ⟨-, e⟩ | ⟨h, -, ⟨-, e⟩ | ⟨-, e⟩⟩ := execHdrSer_cases s
    · exact ⟨s.setObits [], _, ⟨[], s.fd.fcs, rfl⟩, e⟩
    · exact ⟨s.setObits [], _, ⟨[], s.fd.fcs, rfl⟩, e⟩
    · exact ⟨_, _, ⟨_, _, rfl⟩, e⟩
  | hdrDes => exact ⟨_, _, ⟨_, rfl⟩, execHdrDes_eq s⟩

/-- No command writes IBITS, CS_IN or a field of FD other than FD.FCS (R30, R31). -/
theorem exec_keeps_host_inputs {i : Instr} {s t : State} (ht : exec i s = .next t) :
    t.ibits = s.ibits ∧ t.csIn = s.csIn ∧ t.fd = { s.fd with fcs := t.fd.fcs } := by
  obtain ⟨u, E, hw, e⟩ := exec_completes i s
  cases ht.symm.trans e
  cases hw <;> exact ⟨rfl, rfl, rfl⟩

/-- Settles O28: in each case of `WritesOf`, the setters leave every field that the command does not write. -/
theorem stateIsWrittenOnlyByItsWriters : Obligations.StateIsWrittenOnlyByItsWriters := by
  unfold Obligations.StateIsWrittenOnlyByItsWriters
  intro i s t ht
  obtain ⟨hibits, hcsIn, hfd⟩ := exec_keeps_host_inputs ht
  refine ⟨hibits, hcsIn, hfd, ?_⟩
  obtain ⟨u, E, hw, e⟩ := exec_writes i s
  cases ht.symm.trans e
  cases i with
  | rst | nop => cases hw; simp
  | stfClr | fcsInit | fcsBit | fcsByte | stfSeq | unsSeq | fcsApp | fcsVal | hdrHdr | csEnc | csDec | hdrFcsf | hdrDes =>
    obtain ⟨_, rfl⟩ := hw
    simp [Instr.fcsIncremental]
  | unsClr | hdrSer => obtain ⟨_, _, rfl⟩ := hw; simp
  | stfBit b => obtain ⟨_, _, rfl⟩ := hw; cases b <;> simp
  | unsBit b => obtain ⟨_, _, _, rfl⟩ := hw; cases b <;> simp

/-! ## The whole-sequence commands and the unit registers -/

section
variable (s u : State)

@[simp] theorem State.withUnitsOf_cfg : (s.withUnitsOf u).cfg = s.cfg := rfl
@[simp] theorem State.withUnitsOf_ibits : (s.withUnitsOf u).ibits = s.ibits := rfl
@[simp] theorem State.withUnitsOf_csIn : (s.withUnitsOf u).csIn = s.csIn := rfl
@[simp] theorem State.withUnitsOf_fd : (s.withUnitsOf u).fd = s.fd := rfl

/-- OBITS, its capacity and STATUS are no unit registers (R33). -/
theorem emitObits_withUnitsOf (r : Bits) : emitObits r (s.withUnitsOf u) = withUnitsResult u (emitObits r s) := by
  simp only [emitObits, State.withUnitsOf_cfg, apply_ite (withUnitsResult u)]
  rfl

/-- A whole-sequence command is the same function of the rest of the state whatever the unit registers hold (R33). -/
theorem exec_withUnitsOf {i : Instr} (hi : i.wholeSequence = true) :
    exec i (s.withUnitsOf u) = withUnitsResult u (exec i s) := by
  cases i with
  | stfSeq | unsSeq | fcsApp => exact emitObits_withUnitsOf s u _
  | fcsVal =>
    simp only [exec, execFcsVal, State.withUnitsOf_ibits, emitObits_withUnitsOf, apply_ite (withUnitsResult u)]
    rfl
  | csEnc c =>
    simp only [exec, execCsEnc, State.withUnitsOf_csIn]
    cases encodeCallsign s.csIn c <;> rfl
  | csDec =>
    simp only [exec, execCsDec, State.withUnitsOf_csIn, apply_ite (withUnitsResult u)]
    rfl
  | hdrHdr =>
    simp only [exec, execHdrHdr, State.withUnitsOf_fd, emitObits_withUnitsOf]
    cases s.fd.header <;> rfl
  | hdrFcsf =>
    simp only [exec, execHdrFcsf, State.withUnitsOf_fd]
    cases s.fd.header <;> rfl
  | hdrSer =>
    simp only [exec, execHdrSer, State.withUnitsOf_fd, State.withUnitsOf_cfg]
    cases s.fd.header with
    | none => rfl
    | some h => simp only [apply_ite (withUnitsResult u)]; rfl
  | hdrDes => simp only [exec, execHdrDes_eq]; rfl
  | rst | nop | stfClr | stfBit | unsClr | unsBit | fcsInit | fcsBit | fcsByte => cases hi

end

/-- A whole-sequence command leaves the unit registers: it does not see that they are replaced by themselves (R33). -/
theorem exec_keeps_units {i : Instr} {s t : State} (hi : i.wholeSequence = true) (ht : exec i s = .next t) :
    t.withUnitsOf s = t := by
  have h : exec i s = withUnitsResult s (exec i s) := exec_withUnitsOf s s hi
  rw [ht] at h
  exact (Host.Outcome.next.inj h).symm

/-- Settles O29. -/
theorem wholeSequenceCommandsIgnoreUnitRegisters : Obligations.WholeSequenceCommandsIgnoreUnitRegisters := by
  unfold Obligations.WholeSequenceCommandsIgnoreUnitRegisters
  exact fun i s u hi => ⟨exec_withUnitsOf s u hi, fun t ht => exec_keeps_units hi ht⟩

/-! ## No command reads STATUS -/

/-- Settles O32: no command's meaning reads STATUS, and each ends by writing it. -/
theorem earlierStatusNeverMatters : Obligations.EarlierStatusNeverMatters := by
  unfold Obligations.EarlierStatusNeverMatters
  intro i s e
  cases i <;> rfl

/-! ## The two orders of a whole-sequence and an incremental command -/

/-- An incremental command sets STATUS to OK and the unit registers to values that depend on nothing but the unit registers: on
any state `a` with those of `s` it leaves the ones it leaves on `s` (R100 to R102, R120 to R122, R140 to R146). -/
theorem exec_incremental {i : Instr} (hi : i.incremental = true) (s : State) :
    ∃ t, exec i s = .next t ∧ ∀ a : State, exec i (a.withUnitsOf s) = complete (a.withUnitsOf t) := by
  cases i with
  | stfClr | stfBit | unsClr | unsBit | fcsInit | fcsBit | fcsByte => exact ⟨_, rfl, fun _ => rfl⟩
  | rst | nop | stfSeq | unsSeq | fcsApp | fcsVal | csEnc | csDec | hdrHdr | hdrFcsf | hdrSer | hdrDes => cases hi

theorem runCommands_pair {i j : Instr} {s t u : State} (hi : exec i s = .next t) (hj : exec j t = .next u) :
    runCommands [i, j] s = .next u := by
  simp only [runCommands, hi, hj]

/-- Settles O33. The whole-sequence command leaves the units to the incremental one and does not look at what that makes of
them, so both orders end in the same outputs and units. -/
theorem wholeSequenceCommandsInterleaveFreely : Obligations.WholeSequenceCommandsInterleaveFreely := by
  unfold Obligations.WholeSequenceCommandsInterleaveFreely
  intro w u s hw hu
  obtain ⟨a, E, -, ha⟩ := exec_writes w s
  generalize a.setStatus E = a at ha
  obtain ⟨v, -, hv⟩ := exec_incremental hu s
  have hua : exec u a = complete (a.withUnitsOf v) := exec_keeps_units hw ha ▸ hv a
  have hwv : exec w ((s.withUnitsOf v).setStatus .ok) = .next (a.withUnitsOf v) := by
    calc exec w ((s.withUnitsOf v).setStatus .ok)
      _ = exec w (s.withUnitsOf v) := earlierStatusNeverMatters w _ .ok
      _ = withUnitsResult v (exec w s) := exec_withUnitsOf s v hw
      _ = .next (a.withUnitsOf v) := by rw [ha]; rfl
  exact ⟨_, _, runCommands_pair ha hua, runCommands_pair (hv s) hwv, rfl⟩

/-! ## Host writes -/

theorem step_writePort_fits {s : State} {w : PortWrite} {rest : List HostAct} (h : s.host = .writePort w :: rest)
    (hw : portWriteFits w s.cfg = true) : step s = .next (portWrite w (s.setHost rest)) :=
  (step_of_host_cons h).trans (if_pos hw)

theorem step_writePort_tooLong {s : State} {w : PortWrite} {rest : List HostAct} (h : s.host = .writePort w :: rest)
    (hw : portWriteFits w s.cfg = false) : step s = .fault .portWriteTooLong :=
  (step_of_host_cons h).trans (if_neg (Bool.eq_false_iff.1 hw))

/-- Settles O39: `portWriteFits` compares the length with the capacity, and `portWrite` replaces the one value. -/
theorem hostPortWritesReplaceWholeValue : Obligations.HostPortWritesReplaceWholeValue := by
  unfold Obligations.HostPortWritesReplaceWholeValue
  intro s rest
  have fits {n m : Nat} (h : n ≤ m) : decide (n ≤ m) = true := decide_eq_true h
  have tooLong {n m : Nat} (h : m < n) : decide (n ≤ m) = false := decide_eq_false (Nat.not_le.2 h)
  refine ⟨fun _ h hl => step_writePort_fits h (fits hl), fun _ h hl => step_writePort_fits h (fits hl),
    fun _ h hl => step_writePort_fits h (fits hl), fun _ h hl => step_writePort_fits h (fits hl),
    fun _ h hl => step_writePort_fits h (fits hl), fun i v h hl => ?digiTxt, fun _ h => step_writePort_fits h rfl,
    fun _ h => step_writePort_fits h rfl, fun _ h => step_writePort_fits h rfl,
    fun _ h hl => step_writePort_tooLong h (tooLong hl), fun _ hl h => ?textTooLong,
    fun _ h hl => step_writePort_tooLong h (tooLong hl)⟩
  case digiTxt =>
    refine ⟨s.fd.digiTxt.set i v, step_writePort_fits h (fits hl), Vector.getElem_set_self _, fun k hk => ?_⟩
    exact Vector.getElem_set_ne _ _ fun hik => hk (Fin.ext hik.symm)
  case textTooLong => obtain h | h | h | ⟨i, h⟩ := h <;> exact step_writePort_tooLong h (tooLong hl)

theorem step_writeReg {s : State} {n : Byte} {v : Word} {rest : List HostAct} (h : s.host = .writeReg n v :: rest)
    (hn : n ≠ 0) : step s = .next (regWrite n v (s.setHost rest)) :=
  (step_of_host_cons h).trans (if_neg hn)

/-- A write to a register that is not read/write is ignored (R28). -/
theorem regWrite_ignored {n : Byte} (hn : n ∉ [(0x04 : Byte), 0x07, 0x08, 0x09]) (v : Word) (s : State) :
    regWrite n v s = s := by
  simp only [List.mem_cons, List.not_mem_nil, or_false, not_or, ← BitVec.toNat_inj] at hn
  obtain ⟨h4, h7, h8, h9⟩ := hn
  unfold regWrite
  split
  · next h => exact absurd h h4
  · next h => exact absurd h h7
  · next h => exact absurd h h8
  · next h => exact absurd h h9
  · rfl

/-- Settles O37, register by register; the low bits of the value are its truncation. -/
theorem registerWritesOnlyNamedFields : Obligations.RegisterWritesOnlyNamedFields := by
  unfold Obligations.RegisterWritesOnlyNamedFields
  intro s n v rest h hn
  have hstep := step_writeReg h hn
  rw [BitVec.setWidth_eq_extractLsb' (by decide), BitVec.setWidth_eq_extractLsb' (by decide)]
  refine ⟨?_, ?_, ?_, ?_, fun hn' => ?_⟩
  · rintro rfl; exact hstep
  · rintro rfl; exact hstep
  · rintro rfl; exact hstep
  · rintro rfl; exact hstep
  · rw [hstep, regWrite_ignored hn']; rfl

/-! ## Host reads -/

/-- The word that is `v` from bit `k` on, and 0 elsewhere: a register is the union of its fields (R27). -/
def regField {w : Nat} (k : Nat) (v : BitVec w) : Word := zext16 v <<< k

section
variable {w : Nat} (v : BitVec w) {k i n : Nat}

theorem zext16_eq_regField : zext16 v = regField 0 v := (BitVec.shiftLeft_zero _).symm

theorem regField_getLsbD : (regField k v).getLsbD i = (decide (k ≤ i ∧ i < 16) && v.getLsbD (i - k)) := by
  by_cases hk : k ≤ i <;> by_cases hi : i < 16 <;> simp [regField, zext16, hk, hi]

/-- A field reads 0 at every bit below it and above it. -/
theorem regField_getLsbD_apart (h : i < k ∨ k + w ≤ i) : (regField k v).getLsbD i = false := by
  rw [regField_getLsbD]
  obtain h | h := h
  · simp [Nat.not_le.2 h]
  · simp [BitVec.getLsbD_of_ge v (i - k) (by omega)]

@[simp] theorem regField_getElem (h : i < 16) : (regField k v)[i] = (decide (k ≤ i) && v.getLsbD (i - k)) := by
  rw [← BitVec.getLsbD_eq_getElem, regField_getLsbD]
  simp [h]

@[simp] theorem regField_extractLsb' (h : k + w ≤ 16) : (regField k v).extractLsb' k w = v := by
  refine BitVec.eq_of_getLsbD_eq fun i hi => ?_
  rw [BitVec.getLsbD_extractLsb', regField_getLsbD]
  have hk : k ≤ k + i ∧ k + i < 16 := by omega
  simp [hi, hk]

@[simp] theorem regField_extractLsb'_apart (h : i + n ≤ k ∨ k + w ≤ i) : (regField k v).extractLsb' i n = 0 := by
  refine BitVec.eq_of_getLsbD_eq fun j hj => ?_
  rw [BitVec.getLsbD_extractLsb', regField_getLsbD_apart v (by omega)]
  simp

/-- A mask that is 0 at the bits of a field reads nothing of it. -/
@[simp] theorem regField_and_eq_zero {m : Word} (h : m.extractLsb' k w = 0) : regField k v &&& m = 0 := by
  refine BitVec.eq_of_getLsbD_eq fun j hj => ?_
  rw [BitVec.getLsbD_and]
  by_cases hf : j < k ∨ k + w ≤ j
  · simp [regField_getLsbD_apart v hf]
  · have hj' : k + (j - k) = j ∧ j - k < w := by omega
    have hm := congrArg (·.getLsbD (j - k)) h
    simp only [BitVec.getLsbD_extractLsb', hj'] at hm
    simpa using fun _ => hm

/-- A register with one field, from bit 0 on, and a mask of its reserved bits. -/
theorem zext16_field {m : Word} (hw : w ≤ 16) (hm : m.extractLsb' 0 w = 0) :
    (zext16 v).extractLsb' 0 w = v ∧ zext16 v &&& m = 0 := by
  rw [zext16_eq_regField]
  exact ⟨regField_extractLsb' v (by omega), regField_and_eq_zero v hm⟩

end

theorem unsStateWord_eq_fields (c : BitVec 3) (k : Bool) :
    unsStateWord c k = regField 0 c ||| regField 3 (BitVec.ofBool k) := by
  rw [← zext16_eq_regField]; rfl

theorem Bres.word_eq_fields (b : Bres) :
    b.word = regField 0 b.n ||| regField 2 (BitVec.ofBool b.b0) ||| regField 3 (BitVec.ofBool b.b1) := by
  rw [← zext16_eq_regField]; rfl

theorem Rx.statusWord_eq_fields (r : Rx) : r.statusWord =
    regField 0 (BitVec.ofBool r.valid) ||| regField 1 r.reason.code ||| regField 5 r.fcsSt.code ||| regField 8 r.ndigi := by
  rw [← zext16_eq_regField]; rfl

theorem Rx.ctrlPidWord_eq_fields (r : Rx) : r.ctrlPidWord = regField 0 r.ctrl ||| regField 8 r.pid := by
  rw [← zext16_eq_regField]; rfl

/-- A register number past the map reads 0 (R27). -/
theorem regRead_reserved {n : Byte} (hn : 0x0E ≤ n.toNat) (s : State) : regRead n s = 0 := by
  unfold regRead
  split
  any_goals omega
  rfl

/-- Settles O36, register by register: each word is the union of its fields. -/
theorem registerMapReads : Obligations.RegisterMapReads := by
  unfold Obligations.RegisterMapReads
  intro s
  have uns : regRead 0x03 s = regField 0 s.unsCnt ||| regField 3 (BitVec.ofBool s.unsSkip) := unsStateWord_eq_fields _ _
  have bres : regRead 0x06 s = _ := s.bres.word_eq_fields
  have status : regRead 0x0B s = _ := s.rx.statusWord_eq_fields
  have ctrlPid : regRead 0x0C s = _ := s.rx.ctrlPidWord_eq_fields
  refine ⟨rfl, zext16_field _ (by decide) (by decide), zext16_field _ (by decide) (by decide), ?_, rfl,
    (BitVec.allOnes_sub_eq_not s.fcsCrc).symm, ?_, zext16_field _ (by decide) (by decide),
    zext16_field _ (by decide) (by decide), zext16_field _ (by decide) (by decide), rfl, ?_, ?_, rfl,
    fun n hn => regRead_reserved hn s⟩
  · rw [uns]; simp [BitVec.extractLsb'_or, BitVec.and_or_distrib_right]
  · rw [bres]; simp [BitVec.extractLsb'_or, BitVec.and_or_distrib_right]
  · rw [status]; simp [BitVec.extractLsb'_or, BitVec.and_or_distrib_right]
  · rw [ctrlPid]; simp [BitVec.extractLsb'_or]

/-- A one-bit field read by name is the number 0 or 1 (log 6). -/
theorem zext16_ofBool (b : Bool) : zext16 (BitVec.ofBool b) = if b then 1 else 0 := by
  cases b <;> rfl

/-- Settles O38: a read replaces `reply` only, and each port name reads its own field. -/
theorem hostReadsHaveNoSideEffect : Obligations.HostReadsHaveNoSideEffect := by
  unfold Obligations.HostReadsHaveNoSideEffect
  refine ⟨fun s n rest h => step_of_host_cons h, fun s p rest h => step_of_host_cons h, fun s => ?_⟩
  exact ⟨rfl, rfl, rfl, rfl, rfl, rfl, fun _ => rfl, rfl, rfl, rfl, rfl, rfl, congrArg HostVal.word (zext16_ofBool s.rx.valid),
    rfl, rfl, rfl, rfl, rfl, fun _ => rfl, rfl, rfl, rfl, rfl⟩

/-! ## The reset state -/

/-- The reset values are admissible, and every port is empty (R330). -/
theorem resetWith_inv {p : Params} (hp : p.ok) : (State.resetWith p).Inv where
  cfgOk := hp
  unitsOk := show State.reset.unitsOk by decide
  portsFit := ⟨Nat.zero_le _, Nat.zero_le _, Nat.zero_le _, Nat.zero_le _, Nat.zero_le _,
    fun i => by simp [State.resetWith, Fd.reset], Nat.zero_le _⟩
  rxGood := Rx.sentinel_good (E := .ok) (f := .notChecked) _ (by decide) fun _ => rfl

/-- Settles O41; the model's own capacities are within the bounds of R8. -/
theorem resetMeetsInvariant : Obligations.ResetMeetsInvariant := by
  unfold Obligations.ResetMeetsInvariant
  exact ⟨fun _ hp => resetWith_inv hp, resetWith_inv (p := Params.chosen) (by decide)⟩

end Sys2Proof.Machine

/-! PROOFS. The encoding (O21 to O25): each row of the opcode table as an opcode and the ARG bits its format requires to be 0,
the decoder as the match of a row, and what the write of a command word does. -/

namespace Sys2Proof

open Laws.TableForm (opcOf_append argOf_append)

/-! ## The two bytes of a command word -/

/-- OPC and ARG fill the word (R70). -/
theorem opcOf_append_argOf (cw : Word) : opcOf cw ++ argOf cw = cw :=
  BitVec.extractLsb'_append_extractLsb'

theorem eq_append_iff {cw : Word} {o a : Byte} : cw = o ++ a ↔ opcOf cw = o ∧ argOf cw = a := by
  constructor
  · rintro rfl; exact ⟨opcOf_append o a, argOf_append o a⟩
  · rintro ⟨rfl, rfl⟩; exact (opcOf_append_argOf cw).symm

/-- A mask over all of OPC and some bits of ARG keeps OPC and those bits. -/
theorem and_opcMask (cw : Word) (m : Byte) : cw &&& (0xFF#8 ++ m) = opcOf cw ++ (argOf cw &&& m) := by
  conv_lhs => rw [← opcOf_append_argOf cw, BitVec.and_append]
  exact congrArg (· ++ _) BitVec.and_allOnes

/-! ## The formats -/

/-- The ARG bits that the format requires to be 0 are 0 (R71). -/
def Format.admits : Format → Byte → Prop
  | .n, arg => arg = 0
  | .b, arg => arg >>> 1 = 0
  | .y, _ => True
  | .a, arg => arg.getLsbD 7 = false

/-- The ARG bits that the format requires to be 0, as a mask (R71). -/
def Format.reserved : Format → Byte
  | .n => 0xFF
  | .b => 0xFE
  | .y => 0x00
  | .a => 0x80

theorem ushiftRight_one_eq_zero_iff {a : Byte} : a >>> 1 = 0 ↔ a &&& 0xFE = 0 := by
  rw [show (0xFE : Byte) = BitVec.allOnes 8 <<< 1 from rfl, ← BitVec.shiftLeft_ushiftRight]
  show a >>> 1 = 0 ↔ a >>> 1 <<< 1 = 0
  bv_omega

theorem Format.admits_iff_reserved (f : Format) (a : Byte) : f.admits a ↔ a &&& f.reserved = 0 := by
  cases f with
  | n => exact (iff_of_eq (congrArg (· = 0) (BitVec.and_allOnes (x := a)))).symm
  | b => exact ushiftRight_one_eq_zero_iff
  | y => exact iff_of_true trivial BitVec.and_zero
  | a =>
    show a.getLsbD 7 = false ↔ a &&& BitVec.twoPow 8 7 = 0
    rw [BitVec.and_twoPow]
    cases a.getLsbD 7 <;> decide

/-- A format B argument is its bit 0 (R72). -/
theorem setWidth_ofBool_getLsbD_zero {a : Byte} (h : a >>> 1 = 0) : (BitVec.ofBool (a.getLsbD 0)).setWidth 8 = a := by
  obtain rfl | rfl : a = 0 ∨ a = 1 := by bv_omega
  · rfl
  · rfl

/-- A format A argument is its low seven bits (R72). -/
theorem setWidth_extractLsb'_seven {a : Byte} (h : a.getLsbD 7 = false) : (a.extractLsb' 0 7).setWidth 8 = a := by
  have ha : 2 * a.toNat < 2 ^ 8 := BitVec.msb_eq_false_iff_two_mul_lt.1 ((BitVec.msb_eq_getLsbD_last a).trans h)
  rw [← BitVec.setWidth_eq_extractLsb' (by decide)]
  bv_omega

theorem decodeN_eq_ok {i j : Instr} {o a : Byte} : decodeN i o a = .ok j ↔ Format.n.admits a ∧ i = j := by
  simp [decodeN, Format.admits, ite_eq_iff]

theorem decodeB_eq_ok {f : Bool → Instr} {j : Instr} {o a : Byte} :
    decodeB f o a = .ok j ↔ Format.b.admits a ∧ f (a.getLsbD 0) = j := by
  simp [decodeB, Format.admits, ite_eq_iff]

theorem decodeA_eq_ok {f : Byte → Instr} {j : Instr} {o a : Byte} :
    decodeA f o a = .ok j ↔ Format.a.admits a ∧ f ((a.extractLsb' 0 7).setWidth 8) = j := by
  simp [decodeA, Format.admits, ite_eq_iff]

/-! ## The rows -/

/-- The command of `i`'s row with the operand read from `arg` (R72). -/
def Instr.withArgument (i : Instr) (arg : Byte) : Instr :=
  match i with
  | .stfBit _ => .stfBit (arg.getLsbD 0)
  | .unsBit _ => .unsBit (arg.getLsbD 0)
  | .fcsBit _ => .fcsBit (arg.getLsbD 0)
  | .fcsByte _ => .fcsByte arg
  | .csEnc _ => .csEnc ((arg.extractLsb' 0 7).setWidth 8)
  | .rst | .nop | .stfClr | .stfSeq | .unsClr | .unsSeq | .fcsInit | .fcsApp | .fcsVal | .csDec | .hdrHdr | .hdrFcsf
  | .hdrSer | .hdrDes => i

/-- One command of each row of the opcode map, in its order (R73). -/
def rowCommands : List Instr :=
  [.rst, .nop, .stfClr, .stfBit false, .stfSeq, .unsClr, .unsBit false, .unsSeq, .fcsInit, .fcsBit false, .fcsByte 0,
    .fcsApp, .fcsVal, .csEnc 0, .csDec, .hdrHdr, .hdrFcsf, .hdrSer, .hdrDes]

/-- Only the opcodes of the map decode; every other one is reserved (R73, R74). -/
theorem exists_row_of_decode {cw : Word} {j : Instr} (h : decode cw = .ok j) : ∃ i ∈ rowCommands, opcOf cw = i.opcode := by
  have hmem : (opcOf cw).toNat ∈ rowCommands.map fun i => i.opcode.toNat := by
    simp only [decode] at h
    split at h
    case h_20 => cases h
    all_goals next hopc => rw [hopc]; decide
  obtain ⟨i, hi, hopc⟩ := List.mem_map.1 hmem
  exact ⟨i, hi, (BitVec.eq_of_toNat_eq hopc).symm⟩

/-- Under an opcode of the map, the word is legal when its format admits ARG, and ARG is the operand (R71, R72, R76). -/
theorem decode_eq_ok_of_opcode {cw : Word} {i j : Instr} (h : opcOf cw = i.opcode) :
    decode cw = .ok j ↔ i.format.admits (argOf cw) ∧ i.withArgument (argOf cw) = j := by
  unfold decode
  rw [h]
  cases i with
  | stfBit | unsBit | fcsBit => exact decodeB_eq_ok
  | fcsByte => exact ⟨fun h => ⟨trivial, Except.ok.inj h⟩, fun ⟨_, e⟩ => congrArg Except.ok e⟩
  | csEnc => exact decodeA_eq_ok
  | _ => exact decodeN_eq_ok

theorem Instr.opcode_withArgument (i : Instr) (a : Byte) : (i.withArgument a).opcode = i.opcode := by
  cases i <;> rfl

theorem Instr.wellFormed_withArgument (i : Instr) (a : Byte) : (i.withArgument a).wellFormed = true := by
  cases i with
  | csEnc => exact decide_eq_true (by bv_omega)
  | _ => rfl

/-- An admitted ARG is the argument of the command it selects. -/
theorem Instr.argument_withArgument {i : Instr} {a : Byte} (h : i.format.admits a) : (i.withArgument a).argument = a := by
  cases i with
  | stfBit | unsBit | fcsBit => exact setWidth_ofBool_getLsbD_zero h
  | fcsByte => rfl
  | csEnc => exact setWidth_extractLsb'_seven h
  | _ => exact h.symm

/-- An operand is read back from the argument that holds it. -/
theorem Instr.withArgument_argument {i : Instr} (h : i.wellFormed = true) : i.withArgument i.argument = i := by
  cases i with
  | stfBit b | unsBit b | fcsBit b => cases b <;> rfl
  | csEnc c => exact congrArg Instr.csEnc (setWidth_extractLsb'_seven (Laws.TableForm.csEnc c h).2.2)
  | _ => rfl

theorem Instr.admits_argument {i : Instr} (h : i.wellFormed = true) : i.format.admits i.argument := by
  cases i with
  | stfBit b | unsBit b | fcsBit b => cases b <;> rfl
  | fcsByte => trivial
  | csEnc c => exact (Laws.TableForm.csEnc c h).2.2
  | _ => rfl

/-- The decoder inverts the encoder on the well-formed commands, and accepts no other word (R71 to R73, R76). -/
theorem decode_eq_ok_iff {cw : Word} {i : Instr} : decode cw = .ok i ↔ i.wellFormed = true ∧ encode i = cw := by
  constructor
  · intro h
    obtain ⟨r, -, hopc⟩ := exists_row_of_decode h
    obtain ⟨hadm, rfl⟩ := (decode_eq_ok_of_opcode hopc).1 h
    refine ⟨r.wellFormed_withArgument _, (eq_append_iff.2 ⟨?opc, ?arg⟩).symm⟩
    case opc => rw [hopc, Instr.opcode_withArgument]
    case arg => rw [Instr.argument_withArgument hadm]
  · rintro ⟨hi, rfl⟩
    refine (decode_eq_ok_of_opcode (opcOf_append i.opcode i.argument)).2 ?_
    rw [argOf_append]
    exact ⟨Instr.admits_argument hi, Instr.withArgument_argument hi⟩

theorem decode_encode {i : Instr} (h : i.wellFormed = true) : decode (encode i) = .ok i :=
  decode_eq_ok_iff.2 ⟨h, rfl⟩

/-- Settles O21, by the opcode's row: the format admits ARG, and ARG holds the operand. -/
theorem decodeInvertsEncode : Obligations.DecodeInvertsEncode := by
  unfold Obligations.DecodeInvertsEncode
  exact fun _ _ => decode_eq_ok_iff

/-! ## The table's rows -/

/-- The row of the opcode table that `i` belongs to: all of OPC and the reserved ARG bits are fixed (R71, R76). -/
def Instr.row (i : Instr) : Word × Word := (0xFF#8 ++ i.format.reserved, i.opcode ++ 0#8)

theorem tableRows_eq : Machine.tableRows = rowCommands.map Instr.row := rfl

theorem rowCommands_opcode_inj {i j : Instr} (hi : i ∈ rowCommands) (hj : j ∈ rowCommands) (h : i.opcode = j.opcode) :
    i = j :=
  List.inj_on_of_nodup_map (f := Instr.opcode) (by decide) hi hj h

theorem and_row_eq_iff {cw : Word} {i : Instr} :
    cw &&& i.row.1 = i.row.2 ↔ opcOf cw = i.opcode ∧ i.format.admits (argOf cw) := by
  rw [Format.admits_iff_reserved]
  simp only [Instr.row, and_opcMask, eq_append_iff, opcOf_append, argOf_append]
  rfl

theorem decodes_iff_row {cw : Word} : (∃ i, decode cw = .ok i) ↔ ∃ r ∈ Machine.tableRows, cw &&& r.1 = r.2 := by
  simp only [tableRows_eq, List.mem_map, exists_exists_and_eq_and, and_row_eq_iff]
  constructor
  · rintro ⟨j, hj⟩
    obtain ⟨i, hi, hopc⟩ := exists_row_of_decode hj
    exact ⟨i, hi, hopc, ((decode_eq_ok_of_opcode hopc).1 hj).1⟩
  · rintro ⟨i, -, hopc, hadm⟩
    exact ⟨_, (decode_eq_ok_of_opcode hopc).2 ⟨hadm, rfl⟩⟩

/-- Settles O22: a word matches the row of its opcode if that row's format admits its ARG, and no other row. -/
theorem decodableWordsAreTheTableRows : Obligations.DecodableWordsAreTheTableRows := by
  unfold Obligations.DecodableWordsAreTheTableRows
  refine ⟨fun _ => decodes_iff_row, fun cw r hr q hq hcr hcq => ?_⟩
  rw [tableRows_eq] at hr hq
  obtain ⟨i, hi, rfl⟩ := List.mem_map.1 hr
  obtain ⟨j, hj, rfl⟩ := List.mem_map.1 hq
  have hij : i.opcode = j.opcode := (and_row_eq_iff.1 hcr).1.symm.trans (and_row_eq_iff.1 hcq).1
  rw [rowCommands_opcode_inj hi hj hij]

/-- Settles O23: each word is the encoding of its command. -/
theorem writtenWordsDecodeAsTheSpecSays : Obligations.WrittenWordsDecodeAsTheSpecSays := by
  unfold Obligations.WrittenWordsDecodeAsTheSpecSays
  refine ⟨?_, ?_, ?_, ?_, ?_, ?_, ?_, ?_⟩ <;> exact decode_eq_ok_iff.2 ⟨rfl, rfl⟩

end Sys2Proof

namespace Sys2Proof.Machine

open Sys2Proof

/-! ## The issue of a word -/

theorem step_writeCmd {s : State} {cw : Word} {rest : List HostAct} (h : s.host = .writeReg 0 cw :: rest) :
    step s = issue cw (s.setHost rest) := by
  rw [step_of_host_cons h]; rfl

/-- Settles O24: the write of CMD is the issue of its word, and a word that decodes runs its command. -/
theorem stepRunsTheWrittenCommand : Obligations.StepRunsTheWrittenCommand := by
  unfold Obligations.StepRunsTheWrittenCommand
  refine ⟨fun s cw rest h => ⟨step_writeCmd h, fun i hi => ?_⟩, step_queueCommand, fun s i hi => ?_⟩
  · exact (step_writeCmd h).trans (issue_of_ok hi _)
  · exact (step_queueCommand s _).trans (issue_of_ok (decode_encode hi) s)

theorem illegalWord_iff {cw : Word} : illegalWord cw ↔ ∀ i, decode cw ≠ .ok i := by
  rw [← not_exists, decodes_iff_row]
  exact ⟨fun h ⟨r, hr, e⟩ => h r hr e, fun h r hr e => h ⟨r, hr, e⟩⟩

/-- A word that decodes to no command only sets STATUS (R272). -/
theorem issue_of_illegalWord {cw : Word} (h : illegalWord cw) (s : State) :
    issue cw s = .next (s.setStatus .illegalCommand) := by
  obtain ⟨i, hi, -⟩ | ⟨_, -, e⟩ := issue_cases cw s
  · exact absurd hi (illegalWord_iff.1 h i)
  · exact e

theorem illegalWord_of_opcode {cw : Word} (h : ∀ i ∈ rowCommands, opcOf cw ≠ i.opcode) : illegalWord cw :=
  illegalWord_iff.2 fun _ hj => by
    obtain ⟨i, hi, hopc⟩ := exists_row_of_decode hj
    exact h i hi hopc

/-- Settles O25: an illegal word decodes to no command, and no row has an opcode of the reserved ranges. -/
theorem illegalWordOnlySetsStatus : Obligations.IllegalWordOnlySetsStatus := by
  unfold Obligations.IllegalWordOnlySetsStatus
  refine ⟨fun s cw h => issue_of_illegalWord h s, fun cw hopc => illegalWord_of_opcode fun i hi h => ?_⟩
  rw [h] at hopc
  clear h
  revert hopc
  revert i
  decide

end Sys2Proof.Machine

/-! PROOFS. The bit-stuffer (O3 to O5, O43, O45 to O49): the words of a row's commands, one STF.BIT and a run of them, and the laws
of `stuff` and `unstuff` (R104, R124), each by induction from a count of ones already seen. -/

namespace Sys2Proof.Machine

open Sys2Proof

/-! ## The words of one row -/

theorem onlyWord_encode {i : Instr} (h : i.wellFormed = true) : onlyWord i (encode i) := fun cw => by
  rw [decode_eq_ok_iff, and_iff_right h, eq_comm]

/-- If `good` holds of the encodings of the commands of `i`'s row, the row's other words are illegal (R74, R272). -/
theorem illegalOtherwise_of_row (i : Instr) {good : Word → Prop}
    (h : ∀ a, i.format.admits a → good (encode (i.withArgument a))) : illegalOtherwise i.opcode good := by
  intro cw s hopc hbad
  refine issue_of_illegalWord (illegalWord_iff.2 fun j hj => hbad ?_) s
  obtain ⟨hadm, rfl⟩ := (decode_eq_ok_of_opcode hopc).1 hj
  exact (decode_eq_ok_iff.1 hj).2 ▸ h _ hadm

theorem withArgument_of_noOperand {i : Instr} (h : i.format = .n) (a : Byte) : i.withArgument a = i := by
  cases i with
  | stfBit | unsBit | fcsBit | fcsByte | csEnc => cases h
  | _ => rfl

/-- A command without an operand has one word (R71). -/
theorem illegalOtherwise_of_noOperand {i : Instr} (h : i.format = .n) : illegalOtherwise i.opcode (· = encode i) :=
  illegalOtherwise_of_row i fun a _ => congrArg encode (withArgument_of_noOperand h a)

/-- A command whose operand is the bit ARG[0] has two words (R71, R72). -/
theorem illegalOtherwise_of_bitOperand (f : Bool → Instr) (h : ∀ a, (f false).withArgument a = f (a.getLsbD 0)) :
    illegalOtherwise (f false).opcode (fun w => w = encode (f false) ∨ w = encode (f true)) := by
  refine illegalOtherwise_of_row (f false) fun a _ => ?_
  rw [h]
  cases a.getLsbD 0 with
  | false => exact .inl rfl
  | true => exact .inr rfl

/-! ## STF.CLR and STF.SEQ -/

/-- Settles O3: the one word is the encoding, and the meaning is the record update. -/
theorem stfClrClearsCount : Obligations.StfClrClearsCount := by
  unfold Obligations.StfClrClearsCount
  exact ⟨onlyWord_encode rfl, illegalOtherwise_of_noOperand (i := .stfClr) rfl, fun _ => rfl⟩

theorem exec_stfSeq (s : State) : exec .stfSeq s = emitObits (stuff s.ibits) s := rfl

theorem exec_unsSeq (s : State) : exec .unsSeq s = emitObits (unstuff s.ibits) s := rfl

/-- Settles O5, by the two answers of `emitObits`. -/
theorem stfSeqStuffsInput : Obligations.StfSeqStuffsInput := by
  unfold Obligations.StfSeqStuffsInput
  exact ⟨onlyWord_encode rfl, illegalOtherwise_of_noOperand (i := .stfSeq) rfl,
    fun s h => (exec_stfSeq s).trans (emitObits_fits h), fun s h => (exec_stfSeq s).trans (emitObits_overflows h)⟩

/-! ## STF.BIT -/

/-- BRES reports the bits it was made of: it holds up to two (R25). -/
theorem Bres.bits_ofBits : ∀ {o : Bits}, o.length ≤ 2 → (Bres.ofBits o).bits = o
  | [], _ | [_], _ | [_, _], _ => rfl

/-- STF.BIT writes the count and the bits of one stuffing step (R102). -/
theorem exec_stfBit (b : Bool) (s : State) : exec (.stfBit b) s = .next { s with
    stfCnt := BitVec.ofNat 3 (stuffStep s.stfCnt.toNat b).1,
    bres := Bres.ofBits (stuffStep s.stfCnt.toNat b).2,
    status := .ok } := rfl

/-- A run of STF.BIT commands emits what stuffing from STF_CNT gives (R102). -/
theorem emittedBy_stfBits (bs : Bits) {s : State} (h : s.stfCnt.toNat ≤ 4) :
    emittedBy (bs.map .stfBit) s = stuffFrom s.stfCnt.toNat bs := by
  induction bs generalizing s with
  | nil => rfl
  | cons b bs ih =>
    have hc := stuffStep_count_le h b
    have hcnt : (BitVec.ofNat 3 (stuffStep s.stfCnt.toNat b).1).toNat = (stuffStep s.stfCnt.toNat b).1 := by
      rw [BitVec.toNat_ofNat]
      omega
    have ho : (stuffStep s.stfCnt.toNat b).2.length ≤ 2 := by
      obtain e | e := stuffStep_bits s.stfCnt.toNat b <;> simp [e]
    simp only [List.map_cons, emittedBy, exec_stfBit, stuffFrom_cons, Bres.bits_ofBits ho]
    rw [ih (hcnt.trans_le hc), hcnt]

/-- Settles O4: one STF.BIT by the three cases of a stuffing step, a run by `emittedBy_stfBits`. -/
theorem stfBitStuffsOneBit : Obligations.StfBitStuffsOneBit := by
  unfold Obligations.StfBitStuffsOneBit
  refine ⟨onlyWord_encode rfl, onlyWord_encode rfl, illegalOtherwise_of_bitOperand .stfBit fun _ => rfl,
    fun s => ?zero, fun s h => ?counted, fun s h => ?stuffed, fun s bs h => ?run⟩
  case zero =>
    rw [exec_stfBit, stuffStep_false]
    rfl
  case counted =>
    rw [exec_stfBit, stuffStep_true_of_lt h, BitVec.ofNat_add, BitVec.ofNat_toNat, BitVec.setWidth_eq]
    rfl
  case stuffed =>
    rw [exec_stfBit, h]
    rfl
  case run =>
    have hrun := emittedBy_stfBits bs (s := s) (by simp [h])
    rw [h] at hrun
    exact hrun

/-! ## `stuff` by blocks -/

/-- Ones up to a count of four pass, and are counted (R100). -/
theorem stuffFrom_ones {cnt k : Nat} (h : cnt + k ≤ 4) (s : Bits) :
    stuffFrom cnt (List.replicate k true ++ s) = List.replicate k true ++ stuffFrom (cnt + k) s := by
  induction k generalizing cnt with
  | zero => rfl
  | succ k ih =>
    rw [List.replicate_succ, List.cons_append, stuffFrom_cons, stuffStep_true_of_lt (by omega), ih (by omega),
      Nat.add_right_comm, ← Nat.add_assoc]
    rfl

theorem stuffFrom_cons_false (cnt : Nat) (s : Bits) : stuffFrom cnt (false :: s) = false :: stuffFrom 0 s := by
  rw [stuffFrom_cons, stuffStep_false]
  rfl

theorem stuffFrom_four_cons_true (s : Bits) : stuffFrom 4 (true :: s) = true :: false :: stuffFrom 0 s := rfl

/-- Settles O43: four ones are counted, the fifth gets its 0, and a 0 before that clears the count. -/
theorem stuffInsertsZeroAfterFiveOnes : Obligations.StuffInsertsZeroAfterFiveOnes := by
  unfold Obligations.StuffInsertsZeroAfterFiveOnes
  refine ⟨fun s => ?_, fun k s hk => ?_, fun k hk => ?_⟩
  · exact stuffFrom_ones (cnt := 0) (k := 4) (by omega) (true :: s)
  · rw [stuff, stuffFrom_ones (by omega), stuffFrom_cons_false]
    rfl
  · simpa [stuff] using stuffFrom_ones (cnt := 0) (k := k) (by omega) []

/-! ## Runs of ones -/

/-- Fewer than `n` ones and a 0 hold no part of a run of `n` ones. -/
theorem ones_infix_after_zero {n k : Nat} (hk : k < n) {r : Bits}
    (h : List.replicate n true <:+: List.replicate k true ++ false :: r) : List.replicate n true <:+: r := by
  have hp {k : Nat} (hk : k < n) : ¬ List.replicate n true <+: List.replicate k true ++ false :: r := fun hp => by
    have := hp.getElem (i := k) (by simpa using hk)
    simp at this
  induction k with
  | zero => exact (List.infix_cons_iff.1 h).resolve_left (hp hk)
  | succ k ih => exact ih (by omega) ((List.infix_cons_iff.1 h).resolve_left (hp hk))

/-- The output of the stuffer, after the ones it has counted, has no run of six ones (R104 item 2). -/
theorem not_six_ones_infix_stuffFrom {cnt : Nat} (h : cnt ≤ 4) (s : Bits) :
    ¬ List.replicate 6 true <:+: List.replicate cnt true ++ stuffFrom cnt s := by
  induction s generalizing cnt with
  | nil =>
    intro hi
    have := hi.length_le
    simp at this
    omega
  | cons x s ih =>
    obtain ⟨rfl, -⟩ | ⟨rfl, h4, e⟩ | ⟨rfl, rfl, -⟩ := stuffStep_cases h x
    · rw [stuffFrom_cons_false]
      exact fun hi => ih (Nat.zero_le 4) (ones_infix_after_zero (by omega) hi)
    · rw [stuffFrom_cons, e, ← List.append_assoc, ← List.replicate_succ']
      exact ih h4
    · exact fun hi => ih (Nat.zero_le 4) (ones_infix_after_zero (k := 5) (by omega) hi)

/-- The flag pattern holds a run of six ones (R205). -/
theorem six_ones_infix_of_flagAt {s : Bits} {i : Nat} (h : flagAt s i) : List.replicate 6 true <:+: s := by
  have hflag : List.replicate 6 true <:+: flagPattern := ⟨[false], [false], rfl⟩
  rw [← show (s.drop i).take 8 = flagPattern from h] at hflag
  exact hflag.trans ((List.take_prefix _ _).isInfix.trans (List.drop_suffix _ _).isInfix)

/-- Settles O45: from count 0 there are no ones before the output, and a flag would be a run of six. -/
theorem stuffedHasNoSixOnes : Obligations.StuffedHasNoSixOnes := by
  unfold Obligations.StuffedHasNoSixOnes
  intro s
  have hsix : ¬ List.replicate 6 true <:+: stuff s := not_six_ones_infix_stuffFrom (Nat.zero_le 4) s
  exact ⟨hsix, fun k _ hk => hsix (six_ones_infix_of_flagAt hk)⟩

/-- Where the ones counted and the input hold no run of five, the count never reaches five (R104 item 1). -/
theorem stuffFrom_eq_self {cnt : Nat} (h : cnt ≤ 4) {s : Bits}
    (hs : ¬ List.replicate 5 true <:+: List.replicate cnt true ++ s) : stuffFrom cnt s = s := by
  induction s generalizing cnt with
  | nil => rfl
  | cons x s ih =>
    obtain ⟨rfl, -⟩ | ⟨rfl, h4, e⟩ | ⟨rfl, rfl, -⟩ := stuffStep_cases h x
    · rw [stuffFrom_cons_false]
      exact congrArg _ (ih (Nat.zero_le 4) fun hi =>
        hs (hi.trans ((List.suffix_cons _ _).trans (List.suffix_append _ _)).isInfix))
    · rw [← List.singleton_append, ← List.append_assoc, ← List.replicate_succ'] at hs
      rw [stuffFrom_cons, e]
      exact congrArg _ (ih h4 hs)
    · exact absurd (List.prefix_append (List.replicate 5 true) s).isInfix hs

theorem unstuff_stuff (s : Bits) : unstuff (stuff s) = s := unstuffFrom_stuffFrom (Nat.zero_le 4) s

/-- Settles O46: stuffing changes nothing, so neither does unstuffing, which undoes it. -/
theorem shortRunsPassUnchanged : Obligations.ShortRunsPassUnchanged := by
  unfold Obligations.ShortRunsPassUnchanged
  intro s hs
  have hstuff : stuff s = s := stuffFrom_eq_self (Nat.zero_le 4) hs
  refine ⟨hstuff, ?_⟩
  calc unstuff s
    _ = unstuff (stuff s) := by rw [hstuff]
    _ = s := unstuff_stuff s

/-! ## Lengths -/

/-- Each stuffing step emits at least its own bit (R104 item 3). -/
theorem le_stuffFrom_length (cnt : Nat) (s : Bits) : s.length ≤ (stuffFrom cnt s).length := by
  induction s generalizing cnt with
  | nil => exact Nat.le_refl 0
  | cons x s ih =>
    have := ih (stuffStep cnt x).1
    obtain e | e := stuffStep_bits cnt x <;> simp [stuffFrom_cons, e] <;> omega

/-- Each unstuffing step emits at most one bit (R124 item 3). -/
theorem unstuffFrom_length_le {cnt : Nat} (h : cnt ≤ 4) (skip : Bool) (s : Bits) :
    (unstuffFrom cnt skip s).length ≤ s.length := by
  induction s generalizing cnt skip with
  | nil => exact Nat.le_refl 0
  | cons x s ih =>
    obtain ⟨hc, -, ho⟩ := unstuffStep_inv (skip := skip) h x
    have := ih hc (unstuffStep cnt skip x).skip
    simp only [unstuffFrom_cons, List.length_append, List.length_cons]
    omega

/-- Settles O47. -/
theorem stuffAndUnstuffLengthBounds : Obligations.StuffAndUnstuffLengthBounds := by
  unfold Obligations.StuffAndUnstuffLengthBounds
  exact fun s => ⟨le_stuffFrom_length 0 s, stuff_length_le s, unstuffFrom_length_le (Nat.zero_le 4) false s⟩

/-! ## Concatenation, and the round trip through the commands -/

theorem stuffCount_append (cnt : Nat) (s t : Bits) : stuffCount cnt (s ++ t) = stuffCount (stuffCount cnt s) t := by
  induction s generalizing cnt with
  | nil => rfl
  | cons x s ih => exact ih _

/-- Settles O48, by `stuffFrom_append`; a final 0 clears the count. -/
theorem stuffingContinuesFromCount : Obligations.StuffingContinuesFromCount := by
  unfold Obligations.StuffingContinuesFromCount
  refine fun s t => ⟨stuffFrom_append 0 s t, fun h => ?_, fun s' hs => ?_⟩
  · rw [stuff, stuffFrom_append, h]
    rfl
  · rw [hs, stuffCount_append]
    simp [stuffCount]

/-- Settles O49: STF.SEQ left `stuff` of the input, which UNS.SEQ takes back to the input; that is no longer, so it fits. -/
theorem unsSeqInvertsStfSeq : Obligations.UnsSeqInvertsStfSeq := by
  unfold Obligations.UnsSeqInvertsStfSeq
  intro s t ht hok
  obtain ⟨hfit, rfl⟩ | ⟨-, rfl⟩ := emitObits_eq_next.1 ((exec_stfSeq s).symm.trans ht)
  · refine ⟨_, (exec_unsSeq _).trans (emitObits_fits ?fits), unstuff_stuff s.ibits, rfl⟩
    calc (unstuff (stuff s.ibits)).length
      _ = s.ibits.length := by rw [unstuff_stuff]
      _ ≤ (stuff s.ibits).length := le_stuffFrom_length 0 _
      _ ≤ s.cfg.obitsMax := hfit
  · cases hok

end Sys2Proof.Machine

/-! PROOFS. The bit-unstuffer (O6 to O8, O44): one UNS.BIT and a run of them, and `unstuff` by blocks (R120 to R123). -/

namespace Sys2Proof.Machine

open Sys2Proof

/-! ## UNS.CLR and UNS.SEQ -/

/-- Settles O6: the one word is the encoding, and the meaning is the record update. -/
theorem unsClrClearsCountAndSkip : Obligations.UnsClrClearsCountAndSkip := by
  unfold Obligations.UnsClrClearsCountAndSkip
  exact ⟨onlyWord_encode rfl, illegalOtherwise_of_noOperand (i := .unsClr) rfl, fun _ => rfl⟩

/-- Settles O8, by the two answers of `emitObits`. -/
theorem unsSeqUnstuffsInput : Obligations.UnsSeqUnstuffsInput := by
  unfold Obligations.UnsSeqUnstuffsInput
  exact ⟨onlyWord_encode rfl, illegalOtherwise_of_noOperand (i := .unsSeq) rfl,
    fun s h => (exec_unsSeq s).trans (emitObits_fits h), fun s h => (exec_unsSeq s).trans (emitObits_overflows h)⟩

/-! ## One unstuffing step -/

@[simp] theorem unstuffStep_skip (cnt : Nat) (x : Bool) : unstuffStep cnt true x = ⟨cnt, false, []⟩ := rfl

@[simp] theorem unstuffStep_false (cnt : Nat) : unstuffStep cnt false false = ⟨0, false, [false]⟩ := rfl

theorem unstuffStep_true_of_lt {cnt : Nat} (h : cnt < 4) : unstuffStep cnt false true = ⟨cnt + 1, false, [true]⟩ := by
  have : cnt + 1 ≠ 5 := by omega
  simp [unstuffStep, stuffRun, this]

/-! ## UNS.BIT -/

/-- UNS.BIT writes the count, the skip and the bits of one unstuffing step (R122). -/
theorem exec_unsBit (b : Bool) (s : State) : exec (.unsBit b) s = .next { s with
    unsCnt := BitVec.ofNat 3 (unstuffStep s.unsCnt.toNat s.unsSkip b).cnt,
    unsSkip := (unstuffStep s.unsCnt.toNat s.unsSkip b).skip,
    bres := Bres.ofBits (unstuffStep s.unsCnt.toNat s.unsSkip b).out,
    status := .ok } := rfl

/-- A run of UNS.BIT commands passes what unstuffing from UNS_CNT and UNS_SKIP gives (R122). -/
theorem emittedBy_unsBits (bs : Bits) {s : State} (h : s.unsCnt.toNat ≤ 4) :
    emittedBy (bs.map .unsBit) s = unstuffFrom s.unsCnt.toNat s.unsSkip bs := by
  induction bs generalizing s with
  | nil => rfl
  | cons b bs ih =>
    obtain ⟨hc, -, ho⟩ := unstuffStep_inv (skip := s.unsSkip) h b
    have hcnt : (BitVec.ofNat 3 (unstuffStep s.unsCnt.toNat s.unsSkip b).cnt).toNat
        = (unstuffStep s.unsCnt.toNat s.unsSkip b).cnt := by
      rw [BitVec.toNat_ofNat]
      omega
    simp only [List.map_cons, emittedBy, exec_unsBit, unstuffFrom_cons, Bres.bits_ofBits (Nat.le_succ_of_le ho)]
    rw [ih (hcnt.trans_le hc), hcnt]

/-- Settles O7: one UNS.BIT by the four cases of an unstuffing step, a run by `emittedBy_unsBits`. -/
theorem unsBitUnstuffsOneBit : Obligations.UnsBitUnstuffsOneBit := by
  unfold Obligations.UnsBitUnstuffsOneBit
  refine ⟨onlyWord_encode rfl, onlyWord_encode rfl, illegalOtherwise_of_bitOperand .unsBit fun _ => rfl,
    fun s b hskip _ => ?discarded, fun s hskip => ?zero, fun s hskip h => ?counted, fun s hskip h => ?fifth,
    fun s bs h hskip => ?run⟩
  case discarded =>
    rw [exec_unsBit, hskip, unstuffStep_skip, BitVec.ofNat_toNat, BitVec.setWidth_eq]
    rfl
  case zero =>
    rw [exec_unsBit, hskip, unstuffStep_false]
    rfl
  case counted =>
    rw [exec_unsBit, hskip, unstuffStep_true_of_lt h, BitVec.ofNat_add, BitVec.ofNat_toNat, BitVec.setWidth_eq]
    rfl
  case fifth =>
    rw [exec_unsBit, hskip, h]
    rfl
  case run =>
    have hrun := emittedBy_unsBits bs (s := s) (by simp [h])
    rw [h, hskip] at hrun
    exact hrun

/-! ## `unstuff` by blocks -/

theorem unstuffFrom_cons_true_of_lt {cnt : Nat} (h : cnt < 4) (s : Bits) :
    unstuffFrom cnt false (true :: s) = true :: unstuffFrom (cnt + 1) false s := by
  rw [unstuffFrom_cons, unstuffStep_true_of_lt h]
  rfl

/-- Ones up to a count of four pass, and are counted (R120). -/
theorem unstuffFrom_ones {cnt k : Nat} (h : cnt + k ≤ 4) (s : Bits) :
    unstuffFrom cnt false (List.replicate k true ++ s) = List.replicate k true ++ unstuffFrom (cnt + k) false s := by
  induction k generalizing cnt with
  | zero => rfl
  | succ k ih =>
    rw [List.replicate_succ, List.cons_append, unstuffFrom_cons_true_of_lt (by omega), ih (by omega),
      Nat.add_right_comm, ← Nat.add_assoc]
    rfl

theorem unstuffFrom_cons_false (cnt : Nat) (s : Bits) :
    unstuffFrom cnt false (false :: s) = false :: unstuffFrom 0 false s := rfl

/-- Five ones pass, and leave a skip pending (R120). -/
theorem unstuff_five_ones (s : Bits) :
    unstuff (List.replicate 5 true ++ s) = List.replicate 5 true ++ unstuffFrom 0 true s :=
  unstuffFrom_ones (cnt := 0) (k := 4) (by omega) (true :: s)

/-- A pending skip discards the next bit, whatever it is (R120). -/
theorem unstuffFrom_skip_cons (cnt : Nat) (x : Bool) (s : Bits) :
    unstuffFrom cnt true (x :: s) = unstuffFrom cnt false s := rfl

/-- Settles O44: five ones leave a skip, which takes the next bit if there is one; a 0 before that clears the count. -/
theorem unstuffDropsBitAfterFiveOnes : Obligations.UnstuffDropsBitAfterFiveOnes := by
  unfold Obligations.UnstuffDropsBitAfterFiveOnes
  refine ⟨fun x s => ?discarded, fun k s hk => ?zero, fun k hk => ?ones⟩
  case discarded =>
    rw [unstuff_five_ones, unstuffFrom_skip_cons]
    rfl
  case zero =>
    rw [unstuff, unstuffFrom_ones (by omega), unstuffFrom_cons_false]
    rfl
  case ones =>
    obtain hk | rfl := Nat.lt_or_eq_of_le hk
    · simpa [unstuff] using unstuffFrom_ones (cnt := 0) (k := k) (by omega) []
    · exact unstuff_five_ones []

end Sys2Proof.Machine

/-! PROOFS. The FCS engine (O9 to O13, O40, O50 to O52): a run of commands that fold the accumulator, the trailer FCS.VAL checks,
and the laws of R150, which rest on a step of the CRC being linear and injective. -/

namespace Sys2Proof.Machine

open Sys2Proof

/-! ## The incremental commands -/

/-- Settles O9: the one word is the encoding, and the digest of the seed is 0. -/
theorem fcsInitSeedsAccumulator : Obligations.FcsInitSeedsAccumulator := by
  unfold Obligations.FcsInitSeedsAccumulator
  exact ⟨onlyWord_encode rfl, illegalOtherwise_of_noOperand (i := .fcsInit) rfl, fun _ => ⟨rfl, BitVec.not_allOnes⟩⟩

/-- What a step folds in when the feedback is `c` (R140). -/
def feedback (c : Bool) : Word := if c then crcPoly else 0

theorem updateBit_eq (st : Word) (x : Bool) : updateBit st x = (st >>> 1) ^^^ feedback (st.getLsbD 0 ^^ x) := by
  unfold updateBit
  cases h : st.getLsbD 0 ^^ x with
  | false => exact (if_neg (Bool.eq_false_iff.1 h)).trans BitVec.xor_zero.symm
  | true => exact if_pos h

/-- An input bit equal to bit 0 folds nothing in (R140). -/
theorem updateBit_of_eq {st : Word} {x : Bool} (h : st.getLsbD 0 = x) : updateBit st x = st >>> 1 := by
  rw [updateBit_eq, h, Bool.xor_self]
  exact BitVec.xor_zero

theorem updateBit_of_eq_not {st : Word} {x : Bool} (h : st.getLsbD 0 = !x) : updateBit st x = (st >>> 1) ^^^ crcPoly := by
  rw [updateBit_eq, h, Bool.not_xor_self]
  rfl

theorem exec_fcsBit (b : Bool) (s : State) :
    exec (.fcsBit b) s = .next ((s.setFcsCrc (updateBit s.fcsCrc b)).setStatus .ok) := rfl

theorem exec_fcsByte (v : Byte) (s : State) :
    exec (.fcsByte v) s = .next ((s.setFcsCrc (updateByte s.fcsCrc v)).setStatus .ok) := rfl

/-- A run of commands that each fold one operand into FCS_CRC folds their operands, and writes STATUS if there is one. -/
theorem runCommands_foldl {α : Type} {cmd : α → Instr} {fold : Word → α → Word}
    (h : ∀ x s, exec (cmd x) s = .next ((s.setFcsCrc (fold s.fcsCrc x)).setStatus .ok)) (xs : List α) (s : State) :
    runCommands (xs.map cmd) s
      = .next ((s.setFcsCrc (xs.foldl fold s.fcsCrc)).setStatus (if xs.isEmpty then s.status else .ok)) := by
  induction xs generalizing s with
  | nil => rfl
  | cons x xs ih =>
    simp only [List.map_cons, runCommands, h, ih, State.setStatus_status, ite_self]
    rfl

/-- Such a run after FCS.INIT starts from the seed (R143, R144). -/
theorem runCommands_fcsInit_foldl {α : Type} {cmd : α → Instr} {fold : Word → α → Word}
    (h : ∀ x s, exec (cmd x) s = .next ((s.setFcsCrc (fold s.fcsCrc x)).setStatus .ok)) (xs : List α) (s : State) :
    runCommands (.fcsInit :: xs.map cmd) s = .next ((s.setFcsCrc (xs.foldl fold crcSeed)).setStatus .ok) := by
  have hrun := runCommands_foldl h xs ((s.setFcsCrc crcSeed).setStatus .ok)
  rw [State.setStatus_status, ite_self] at hrun
  exact hrun

/-- Settles O10: one FCS.BIT by the two cases of `updateBit`, a run by `runCommands_fcsInit_foldl`. -/
theorem fcsBitFoldsOneBit : Obligations.FcsBitFoldsOneBit := by
  unfold Obligations.FcsBitFoldsOneBit
  refine ⟨onlyWord_encode rfl, onlyWord_encode rfl, illegalOtherwise_of_bitOperand .fcsBit fun _ => rfl,
    fun s b h => ?shifted, fun s b h => ?folded, fun s bs => runCommands_fcsInit_foldl exec_fcsBit bs s⟩
  case shifted =>
    rw [exec_fcsBit, updateBit_of_eq h]
    rfl
  case folded =>
    rw [exec_fcsBit, updateBit_of_eq_not h]
    rfl

theorem encode_fcsByte (v : Byte) : encode (.fcsByte v) = 0x3200 + v.setWidth 16 := by
  show (0x32#8 ++ v : Word) = _
  apply BitVec.eq_of_toNat_eq
  rw [BitVec.toNat_append, ← Nat.shiftLeft_add_eq_or_of_lt v.isLt]
  simp
  omega

/-- Settles O11: the eight FCS.BIT are the fold that `updateByte` is, and every word with the opcode is a byte's encoding. -/
theorem fcsByteFoldsMsbFirst : Obligations.FcsByteFoldsMsbFirst := by
  unfold Obligations.FcsByteFoldsMsbFirst
  refine ⟨fun cw v => ?word, fun s v => ?bits, fun _ _ => ⟨_, rfl⟩,
    fun s B => runCommands_fcsInit_foldl exec_fcsByte B s⟩
  case word => rw [← encode_fcsByte]; exact onlyWord_encode rfl cw
  case bits => exact (runCommands_foldl exec_fcsBit (msbBits v) s).symm

/-- Settles O40: the run over C goes on from the value saved, whatever the other commands did. -/
theorem savedAccumulatorResumesItsStream : Obligations.SavedAccumulatorResumesItsStream := by
  unfold Obligations.SavedAccumulatorResumesItsStream
  intro s a m z B C other ha _ hz
  obtain rfl := Host.Outcome.next.inj ((runCommands_fcsInit_foldl exec_fcsByte B s).symm.trans ha)
  obtain rfl := Host.Outcome.next.inj ((runCommands_foldl exec_fcsByte C _).symm.trans hz)
  exact (crcBytes_append B C).symm

/-! ## The trailer -/

theorem digestBits_eq_wireBits16 (st : Word) : digestBits st = wireBits16 (~~~st) := (wireBits16_eq_bits16 _).symm

@[simp] theorem fcsAppend_length (s : Bits) : (fcsAppend s).length = s.length + 16 := by
  simp [fcsAppend, digestBits]

theorem exec_fcsApp (s : State) : exec .fcsApp s = emitObits (fcsAppend s.ibits) s := rfl

/-- Settles O12, by the two answers of `emitObits`. -/
theorem fcsAppAppendsDigest : Obligations.FcsAppAppendsDigest := by
  unfold Obligations.FcsAppAppendsDigest
  refine ⟨onlyWord_encode rfl, illegalOtherwise_of_noOperand (i := .fcsApp) rfl, fun s h => ?fits, fun s h => ?overflows⟩
  case fits =>
    rw [← digestBits_eq_wireBits16]
    exact (exec_fcsApp s).trans (emitObits_fits ((fcsAppend_length _).trans_le h))
  case overflows => exact (exec_fcsApp s).trans (emitObits_overflows (h.trans_eq (fcsAppend_length _).symm))

/-- Every 16 bits are those of a word (R13). -/
theorem exists_eq_bits16 {t : Bits} (h : t.length = 16) : ∃ v, t = bits16 v := by
  have hb : bitsOf (bytesOf t) = t := bitsOf_bytesOf t (by omega)
  have hl : 8 * (bytesOf t).length = 16 := by rw [← bitsOf_length, hb, h]
  obtain ⟨lo, hi, e⟩ := List.length_eq_two.1 (by omega : (bytesOf t).length = 2)
  refine ⟨hi ++ lo, ?_⟩
  rw [bits16, wordBytes, lowByte_append, highByte_append, ← e, hb]

theorem fcsBody_append (body : Bits) (v : Word) : fcsBody (body ++ bits16 v) = body := by
  simp [fcsBody, slice]

theorem fcsTrailer_append (body : Bits) (v : Word) : fcsTrailer (body ++ bits16 v) = v := by
  have h : (bits16 v).take 16 = bits16 v := List.take_of_length_le (Nat.le_refl 16)
  simp [fcsTrailer, slice, h]

/-- FCS.VAL on a body and 16 trailer bits compares these with the digest of the body (R149). -/
theorem exec_fcsVal_append {s : State} {body : Bits} {v : Word} (h : s.ibits = body ++ bits16 v) :
    exec .fcsVal s
      = if digest (crcBits body) = v then emitObits body s else raiseObits .checksumMismatch s := by
  have hl : ¬ (body ++ bits16 v).length < 16 := by simp
  simp only [exec, execFcsVal, h, fcsBody_append, fcsTrailer_append, if_neg hl, ite_not]

theorem exec_fcsVal_accepts {s : State} {body : Bits} (h : s.ibits = fcsAppend body) :
    exec .fcsVal s = emitObits body s :=
  (exec_fcsVal_append h).trans (if_pos rfl)

theorem exec_fcsVal_rejects {s : State} {body trailer : Bits} (h : s.ibits = body ++ trailer) (hl : trailer.length = 16)
    (hne : trailer ≠ digestBits (crcBits body)) :
    exec .fcsVal s = .next ((s.setObits []).setStatus .checksumMismatch) := by
  obtain ⟨v, rfl⟩ := exists_eq_bits16 hl
  exact (exec_fcsVal_append h).trans (if_neg fun hv => hne (congrArg bits16 hv.symm))

/-- Settles O13, by `exec_fcsVal_rejects`, and `emitObits` of the body on a right trailer. -/
theorem fcsValChecksTrailer : Obligations.FcsValChecksTrailer := by
  unfold Obligations.FcsValChecksTrailer
  simp only [← digestBits_eq_wireBits16]
  exact ⟨onlyWord_encode rfl, illegalOtherwise_of_noOperand (i := .fcsVal) rfl, fun s h => if_pos h,
    fun s body trailer h hl hne => exec_fcsVal_rejects h hl hne,
    fun s body h hfit => (exec_fcsVal_accepts h).trans (emitObits_fits hfit),
    fun s body h hlt => (exec_fcsVal_accepts h).trans (emitObits_overflows hlt)⟩

/-! ## The laws of FCS.APP and FCS.VAL -/

/-- FCS.APP that ends with STATUS OK left the input and its digest, which fit (R148). -/
theorem exec_fcsApp_ok {s t : State} (ht : exec .fcsApp s = .next t) (hok : t.status = .ok) :
    s.ibits.length + 16 ≤ s.cfg.obitsMax ∧ t = (s.setObits (fcsAppend s.ibits)).setStatus .ok := by
  obtain ⟨hfit, rfl⟩ | ⟨-, rfl⟩ := emitObits_eq_next.1 ((exec_fcsApp s).symm.trans ht)
  · exact ⟨(fcsAppend_length _).symm.trans_le hfit, rfl⟩
  · cases hok

/-- Settles O50: the trailer is the digest of the body, and the body is shorter than what FCS.APP fitted. -/
theorem fcsValAcceptsFcsApp : Obligations.FcsValAcceptsFcsApp := by
  unfold Obligations.FcsValAcceptsFcsApp
  intro s t ht hok
  obtain ⟨hfit, rfl⟩ := exec_fcsApp_ok ht hok
  exact ⟨_, (exec_fcsVal_accepts rfl).trans (emitObits_fits (Nat.le_of_add_right_le hfit)), rfl, rfl⟩

theorem digestBits_injective : Function.Injective digestBits := fun a b h => by
  have hd := congrArg val16 h
  rw [digestBits, digestBits, val16_bits16, val16_bits16] at hd
  exact digest_injective hd

/-- The sequence with bit `k` inverted (R150 item 2). -/
def flipBit (s : Bits) (k : Nat) : Bits := s.set k (!s.getD k false)

@[simp] theorem flipBit_length (s : Bits) (k : Nat) : (flipBit s k).length = s.length := by
  simp [flipBit]

theorem flipBit_append_left {s : Bits} {k : Nat} (h : k < s.length) (t : Bits) :
    flipBit (s ++ t) k = flipBit s k ++ t := by
  rw [flipBit, List.getD_append _ _ _ _ h, List.set_append_left _ _ h, flipBit]

theorem flipBit_append_right {s : Bits} {k : Nat} (h : s.length ≤ k) (t : Bits) :
    flipBit (s ++ t) k = s ++ flipBit t (k - s.length) := by
  rw [flipBit, List.getD_append_right _ _ _ _ h, List.set_append_right _ _ h, flipBit]

/-- The states differ after the flipped bit, and no later bit makes them equal again. -/
theorem crcBits_flipBit_ne {s : Bits} {k : Nat} (h : k < s.length) : crcBits (flipBit s k) ≠ crcBits s := by
  have hs : s = s.take k ++ s[k] :: s.drop (k + 1) := by simp
  have hflip : flipBit s k = s.take k ++ (!s[k]) :: s.drop (k + 1) := by
    rw [flipBit, List.set_eq_take_append_cons_drop, if_pos h, List.getD_eq_getElem _ _ h]
  intro heq
  rw [hflip, congrArg crcBits hs, crcBits_append, crcBits_append] at heq
  exact updateBit_ne _ s[k] (foldl_updateBit_injective _ heq.symm)

theorem flipBit_ne {s : Bits} {k : Nat} (h : k < s.length) : flipBit s k ≠ s :=
  ne_of_apply_ne crcBits (crcBits_flipBit_ne h)

/-- A flip in the body changes its digest, a flip in the trailer does not. -/
theorem exec_fcsVal_flipBit {s : State} {body : Bits} {k : Nat} (hk : k < (fcsAppend body).length)
    (h : s.ibits = flipBit (fcsAppend body) k) :
    exec .fcsVal s = .next ((s.setObits []).setStatus .checksumMismatch) := by
  obtain hbody | htrailer := Nat.lt_or_ge k body.length
  · exact exec_fcsVal_rejects (h.trans (flipBit_append_left hbody _)) rfl
      (digestBits_injective.ne (crcBits_flipBit_ne hbody).symm)
  · refine exec_fcsVal_rejects (h.trans (flipBit_append_right htrailer _)) (flipBit_length _ _) (flipBit_ne ?_)
    rw [fcsAppend_length] at hk
    exact Nat.sub_lt_left_of_lt_add htrailer hk

/-- Settles O51: FCS.APP left the input and its digest, and FCS.VAL gets them with a bit flipped. -/
theorem singleBitFlipIsDetected : Obligations.SingleBitFlipIsDetected := by
  unfold Obligations.SingleBitFlipIsDetected
  intro s t k ht hok hk
  obtain ⟨-, rfl⟩ := exec_fcsApp_ok ht hok
  exact exec_fcsVal_flipBit hk rfl

/-! ## The residue -/

theorem feedback_xor (c d : Bool) : feedback (c ^^ d) = feedback c ^^^ feedback d := by
  cases c <;> cases d <;> rfl

/-- A step of the accumulator is linear over exclusive or. -/
theorem updateBit_xor (a b : Word) (x y : Bool) : updateBit (a ^^^ b) (x ^^ y) = updateBit a x ^^^ updateBit b y := by
  simp only [updateBit_eq, feedback_xor, BitVec.getLsbD_xor, BitVec.ushiftRight_xor_distrib]
  ac_rfl

/-- Inverting the bits fed in adds what as many ones contribute. -/
theorem foldl_updateBit_map_not (xs : Bits) (a b : Word) :
    (xs.map (!·)).foldl updateBit (a ^^^ b)
      = xs.foldl updateBit a ^^^ (List.replicate xs.length true).foldl updateBit b := by
  induction xs generalizing a b with
  | nil => rfl
  | cons x xs ih =>
    simp only [List.map_cons, List.foldl_cons, List.length_cons, List.replicate_succ]
    rw [← ih, ← updateBit_xor, Bool.xor_true]

/-- Feeding the accumulator its own low bits shifts them out. -/
theorem foldl_updateBit_own_bits (st : Word) (n : Nat) :
    ((List.range n).map fun i => st.getLsbD i).foldl updateBit st = st >>> n := by
  induction n with
  | zero => simp
  | succ n ih =>
    rw [List.range_succ, List.map_append, List.foldl_append, ih]
    exact (updateBit_of_eq (by simp)).trans (BitVec.shiftRight_add ..).symm

theorem foldl_updateBit_wireBits16 (st : Word) : (wireBits16 st).foldl updateBit st = 0#16 :=
  (foldl_updateBit_own_bits st 16).trans (BitVec.ushiftRight_eq_zero (Nat.le_refl 16))

@[simp] theorem wireBits16_length (v : Word) : (wireBits16 v).length = 16 := rfl

theorem wireBits16_not (v : Word) : wireBits16 (~~~v) = (wireBits16 v).map (!·) := by
  simp [wireBits16, List.range_succ]

/-- What sixteen ones contribute (R150 item 3). -/
theorem foldl_updateBit_sixteen_ones : (List.replicate 16 true).foldl updateBit 0#16 = 0xF0B8 := by
  simp [List.replicate_succ, updateBit, crcPoly]

/-- Settles O52. The digest bits are the accumulator's own bits, which shift it out, each of them inverted, so what is left is
the contribution of sixteen ones. -/
theorem appendedDigestLeavesResidue : Obligations.AppendedDigestLeavesResidue := by
  unfold Obligations.AppendedDigestLeavesResidue
  intro s
  have hfold := foldl_updateBit_map_not (wireBits16 (crcBits s)) (crcBits s) 0#16
  rw [foldl_updateBit_wireBits16, BitVec.xor_zero, BitVec.zero_xor, wireBits16_length] at hfold
  calc crcBits (fcsAppend s)
    _ = ((wireBits16 (crcBits s)).map (!·)).foldl updateBit (crcBits s) := by
      rw [fcsAppend, crcBits_append, digestBits_eq_wireBits16, wireBits16_not]
    _ = (List.replicate 16 true).foldl updateBit 0#16 := hfold
    _ = 0xF0B8 := foldl_updateBit_sixteen_ones

end Sys2Proof.Machine

/-! PROOFS. The callsign coder (O14, O15, O53, O54): the words of CS.ENC, where the upper-cased text is split, what `encodeCallsign`
accepts, and the round trip through CS.DEC (R170 to R175). -/

namespace Sys2Proof.Machine

open Sys2Proof

/-! ## The words of CS.ENC -/

theorem encode_csEnc (c : Byte) : encode (.csEnc c) = 0x4000 + c.setWidth 16 := by
  apply BitVec.eq_of_toNat_eq
  show ((0x40 : Byte) ++ c).toNat = _
  rw [BitVec.toNat_append, ← Nat.shiftLeft_add_eq_or_of_lt c.isLt, Nat.shiftLeft_eq]
  bv_omega

theorem encode_csEnc_lt {c : Byte} (h : c.toNat < 128) : (encode (.csEnc c)).toNat < 0x4080 := by
  rw [encode_csEnc]
  bv_omega

theorem decode_eq_csEnc_iff (cw : Word) (c : Byte) :
    decode cw = .ok (.csEnc c) ↔ c.toNat < 128 ∧ cw = 0x4000 + c.setWidth 16 := by
  rw [decode_eq_ok_iff, encode_csEnc, eq_comm (a := cw), Instr.wellFormed, decide_eq_true_iff]

theorem illegalOtherwise_csEnc : illegalOtherwise 0x40 (fun w => w.toNat < 0x4080) :=
  illegalOtherwise_of_row (.csEnc 0) fun a _ =>
    encode_csEnc_lt (of_decide_eq_true (Instr.wellFormed_withArgument (.csEnc 0) a))

/-! ## Upper case -/

theorem upperText_eq_map (T : Bytes) : upperText T = T.map upperByte := rfl

@[simp] theorem upperText_length (T : Bytes) : (upperText T).length = T.length := List.length_map _

/-- Upper-casing neither makes nor removes a dash (R170). -/
theorem upperByte_eq_dash_iff {b : Byte} : upperByte b = asciiDash ↔ b = asciiDash := by
  unfold upperByte asciiDash
  split <;> bv_omega

theorem dash_mem_upperText {T : Bytes} : asciiDash ∈ upperText T ↔ asciiDash ∈ T := by
  simp [upperText_eq_map, upperByte_eq_dash_iff]

theorem count_dash_upperText (T : Bytes) : (upperText T).count asciiDash = T.count asciiDash := by
  rw [upperText_eq_map, List.count, List.countP_map]
  refine List.countP_congr fun b _ => ?_
  simp [upperByte_eq_dash_iff]

theorem upperText_of_noLower {T : Bytes} (h : ∀ b ∈ T, ¬ (0x61 ≤ b.toNat ∧ b.toNat ≤ 0x7A)) : upperText T = T :=
  (List.map_congr_left fun b hb => if_neg (h b hb)).trans (List.map_id T)

/-! ## The split at the dash -/

theorem splitSsid_of_noDash {U : Bytes} (h : asciiDash ∉ U) (d : Byte) : splitSsid U d = some (U, [d]) := by
  simp [splitSsid, List.count_eq_zero.2 h]

theorem splitSsid_of_oneDash {base suffix : Bytes} (hb : asciiDash ∉ base) (hs : asciiDash ∉ suffix) (d : Byte) :
    splitSsid (base ++ asciiDash :: suffix) d = some (base, suffix) := by
  have hcount : (base ++ asciiDash :: suffix).count asciiDash = 1 := by
    simp [List.count_eq_zero.2 hb, List.count_eq_zero.2 hs]
  have hall : ∀ b ∈ base, decide (b ≠ asciiDash) = true := fun b hm => decide_eq_true fun e => hb (e ▸ hm)
  simp only [splitSsid, hcount, List.takeWhile_append_of_pos hall, List.dropWhile_append_of_pos hall]
  simp

/-- Text with one dash is split there, and both parts are upper-cased (R170). -/
theorem splitSsid_upperText_of_oneDash {base suffix : Bytes} (hb : asciiDash ∉ base) (hs : asciiDash ∉ suffix) (d : Byte) :
    splitSsid (upperText (base ++ asciiDash :: suffix)) d = some (upperText base, upperText suffix) := by
  have happend : upperText (base ++ asciiDash :: suffix) = upperText base ++ asciiDash :: upperText suffix := by
    simp [upperText_eq_map, upperByte_eq_dash_iff.2 rfl]
  rw [happend]
  exact splitSsid_of_oneDash (dash_mem_upperText.not.2 hb) (dash_mem_upperText.not.2 hs) d

theorem splitSsid_of_twoDashes {U : Bytes} (h : 2 ≤ U.count asciiDash) (d : Byte) : splitSsid U d = none := by
  obtain ⟨n, hn⟩ := Nat.exists_eq_add_of_le' h
  simp [splitSsid, hn]

/-! ## What `encodeCallsign` accepts -/

/-- The base and SSID that are accepted, and their address (R170). -/
theorem map_rawAddress_eq_some_iff {base ssid : Bytes} {r : Addr} :
    (rawAddress base ssid).map shiftLeft7 = some r ↔
      ∃ x, ssid = [x] ∧ 1 ≤ base.length ∧ base.length ≤ 6 ∧ r.toList = paddedShifted base x := by
  rw [Option.map_eq_some_iff]
  constructor
  · rintro ⟨raw, hraw, rfl⟩
    obtain ⟨x, rfl, h1, h6, rfl⟩ := rawAddress_eq_some.1 hraw
    exact ⟨x, rfl, h1, h6, shiftLeft7_toList (rawAddress_length hraw)⟩
  · rintro ⟨x, rfl, h1, h6, hr⟩
    have hraw := rawAddress_eq_some.2 ⟨x, rfl, h1, h6, rfl⟩
    exact ⟨_, hraw, Vector.toList_inj.1 ((shiftLeft7_toList (rawAddress_length hraw)).trans hr.symm)⟩

theorem encodeCallsign_eq_bind (T : Bytes) (d : Byte) : encodeCallsign T d =
    if (∀ b ∈ T, b.toNat ≤ 0x7F) ∧ d.toNat ≤ 0x7F then
      (splitSsid (upperText T) d).bind fun p => (rawAddress p.1 p.2).map shiftLeft7
    else none := by
  rw [encodeCallsign, ← upperText_eq_map]
  refine if_congr (by simp [isAscii]) ?_ rfl
  cases splitSsid (upperText T) d <;> rfl

/-- The text is encoded when it is all seven-bit codes, the SSID is one byte and the base has one to six; the result is their
padded and shifted address (R170). -/
theorem encodeCallsign_eq_some_iff {T : Bytes} {d : Byte} {r : Addr} :
    encodeCallsign T d = some r ↔ (∀ b ∈ T, b.toNat ≤ 0x7F) ∧ d.toNat ≤ 0x7F ∧
      ∃ base x, splitSsid (upperText T) d = some (base, [x]) ∧ 1 ≤ base.length ∧ base.length ≤ 6 ∧
        r.toList = paddedShifted base x := by
  rw [encodeCallsign_eq_bind, Option.ite_none_right_eq_some, and_assoc, Option.bind_eq_some_iff]
  simp only [Prod.exists, map_rawAddress_eq_some_iff]
  refine and_congr_right' (and_congr_right' (exists_congr fun base => ?_))
  constructor
  · rintro ⟨_, hsplit, x, rfl, hbase⟩
    exact ⟨x, hsplit, hbase⟩
  · rintro ⟨x, hsplit, hbase⟩
    exact ⟨[x], hsplit, x, rfl, hbase⟩

theorem exists_addr_toList {base : Bytes} (h6 : base.length ≤ 6) (x : Byte) :
    ∃ r : Addr, r.toList = paddedShifted base x := by
  have hlength : (paddedShifted base x).length = 7 := by
    simp only [paddedShifted, List.length_map, List.length_append, List.length_replicate, List.length_singleton]
    omega
  exact ⟨⟨(paddedShifted base x).toArray, hlength⟩, rfl⟩

/-- A text without a dash is the base, and the default SSID stays as it is (R170). -/
theorem encodeCallsign_of_noDash {T : Bytes} {d : Byte} (hT : ∀ b ∈ T, b.toNat ≤ 0x7F ∧ b ≠ 0x2D) (hd : d.toNat ≤ 0x7F)
    (h1 : 1 ≤ T.length) (h6 : T.length ≤ 6) :
    ∃ r, r.toList = paddedShifted (upperText T) d ∧ encodeCallsign T d = some r := by
  rw [← upperText_length] at h1 h6
  obtain ⟨r, hr⟩ := exists_addr_toList h6 d
  refine ⟨r, hr, encodeCallsign_eq_some_iff.2 ⟨fun b hb => (hT b hb).1, hd, upperText T, d, ?_, h1, h6, hr⟩⟩
  exact splitSsid_of_noDash (fun h => (hT _ (dash_mem_upperText.1 h)).2 rfl) d

/-- A suffix after the only dash replaces the default SSID, upper-cased (R170). -/
theorem encodeCallsign_of_suffix {base : Bytes} {x d : Byte} (hbase : ∀ b ∈ base, b.toNat ≤ 0x7F ∧ b ≠ 0x2D)
    (hx : x.toNat ≤ 0x7F) (hxd : x ≠ 0x2D) (hd : d.toNat ≤ 0x7F) (h1 : 1 ≤ base.length) (h6 : base.length ≤ 6) :
    ∃ r, r.toList = paddedShifted (upperText base) (upperByte x) ∧ encodeCallsign (base ++ [0x2D, x]) d = some r := by
  rw [← upperText_length] at h1 h6
  obtain ⟨r, hr⟩ := exists_addr_toList h6 (upperByte x)
  refine ⟨r, hr, encodeCallsign_eq_some_iff.2 ⟨?ascii, hd, upperText base, upperByte x, ?split, h1, h6, hr⟩⟩
  case ascii =>
    simp only [List.forall_mem_append, List.forall_mem_cons]
    exact ⟨fun b hb => (hbase b hb).1, by decide, hx, by simp⟩
  case split =>
    exact splitSsid_upperText_of_oneDash (fun h => (hbase _ h).2 rfl) (by simpa [asciiDash] using hxd.symm) d

/-! ## What `encodeCallsign` refuses -/

/-- Each of the failures of R170. -/
theorem encodeCallsign_eq_none {T : Bytes} {d : Byte}
    (h : 0x7F < d.toNat ∨ (∃ b ∈ T, 0x7F < b.toNat) ∨ 2 ≤ T.count asciiDash ∨
      (T.count asciiDash = 0 ∧ (T.length = 0 ∨ 6 < T.length)) ∨
      (∃ base suffix, T = base ++ asciiDash :: suffix ∧ (suffix.length ≠ 1 ∨ base.length = 0 ∨ 6 < base.length) ∧
        T.count asciiDash = 1)) : encodeCallsign T d = none := by
  refine Option.eq_none_iff_forall_ne_some.2 fun r hr => ?_
  obtain ⟨hT, hd, base, x, hsplit, h1, h6, -⟩ := encodeCallsign_eq_some_iff.1 hr
  rcases h with hd' | ⟨b, hb, hb'⟩ | htwo | ⟨hnone, hlen⟩ | ⟨front, suffix, rfl, hlen, hone⟩
  · exact hd'.not_ge hd
  · exact hb'.not_ge (hT b hb)
  · rw [splitSsid_of_twoDashes (htwo.trans_eq (count_dash_upperText T).symm)] at hsplit
    cases hsplit
  · rw [splitSsid_of_noDash (dash_mem_upperText.not.2 (List.count_eq_zero.1 hnone)), Option.some.injEq] at hsplit
    obtain ⟨rfl, -⟩ := Prod.mk.inj hsplit
    rw [upperText_length] at h1 h6
    omega
  · obtain ⟨hfront, hsuffix⟩ : asciiDash ∉ front ∧ asciiDash ∉ suffix := by
      rw [List.count_append, List.count_cons_self] at hone
      exact ⟨List.count_eq_zero.1 (by omega), List.count_eq_zero.1 (by omega)⟩
    rw [splitSsid_upperText_of_oneDash hfront hsuffix, Option.some.injEq] at hsplit
    obtain ⟨rfl, hx⟩ := Prod.mk.inj hsplit
    have hx1 : suffix.length = 1 := by rw [← upperText_length, hx, List.length_singleton]
    rw [upperText_length] at h1 h6
    omega

/-! ## CS.ENC -/

theorem exec_csEnc_of_encodes {s : State} {c : Byte} {r : Addr} (h : encodeCallsign s.csIn c = some r) :
    exec (.csEnc c) s = .next { s with csOut := r, status := .ok } := by
  show execCsEnc c s = _
  rw [execCsEnc, h]
  rfl

theorem exec_csEnc_of_fails {s : State} {c : Byte} (h : encodeCallsign s.csIn c = none) :
    exec (.csEnc c) s = .next { s with csOut := Addr.zero, status := .structuralError } := by
  show execCsEnc c s = _
  rw [execCsEnc, h]
  rfl

/-- Settles O14: the text is split at its dash, if it has one, and the base and SSID are accepted or one check fails. -/
theorem csEncEncodesCallsign : Obligations.CsEncEncodesCallsign := by
  unfold Obligations.CsEncEncodesCallsign
  refine ⟨decode_eq_csEnc_iff, illegalOtherwise_csEnc, fun s c hc hT h1 h6 => ?noDash,
    fun s c base x hc hcsIn hbase hx hxd h1 h6 => ?suffix, fun s c h => exec_csEnc_of_fails (encodeCallsign_eq_none h)⟩
  case noDash =>
    obtain ⟨r, hr, henc⟩ := encodeCallsign_of_noDash hT hc h1 h6
    exact ⟨r, hr, exec_csEnc_of_encodes henc⟩
  case suffix =>
    obtain ⟨r, hr, henc⟩ := encodeCallsign_of_suffix hbase hx hxd hc h1 h6
    exact ⟨r, hr, exec_csEnc_of_encodes (hcsIn ▸ henc)⟩

/-- Settles O54: a failure leaves zero bytes, a success shifted ones. -/
theorem encodedBytesHaveLowBitZero : Obligations.EncodedBytesHaveLowBitZero := by
  unfold Obligations.EncodedBytesHaveLowBitZero
  intro s t c ht j
  cases henc : encodeCallsign s.csIn c with
  | none =>
    obtain rfl := Host.Outcome.next.inj ((exec_csEnc_of_fails henc).symm.trans ht)
    exact congrArg (BitVec.getLsbD · 0) (Addr.zero_getElem j j.isLt)
  | some r =>
    obtain rfl := Host.Outcome.next.inj ((exec_csEnc_of_encodes henc).symm.trans ht)
    obtain ⟨-, -, raw, -, -, rfl⟩ := encodeCallsign_eq_some henc
    exact shiftLeft7_low raw j j.isLt

/-! ## CS.DEC -/

theorem addrAt_zero_toList {B : Bytes} (h : B.length = 7) : (addrAt B 0).toList = B := by
  simpa using addrAt_append [] B [] 0 rfl h

theorem exec_csDec_of_length {s : State} (h : s.csIn.length = 7) :
    exec .csDec s = .next { s with csOut := decodeAddr (addrAt s.csIn 0), status := .ok } :=
  if_neg (not_not.2 h)

/-- Settles O15, by the two answers to the length check. -/
theorem csDecDecodesAddress : Obligations.CsDecDecodesAddress := by
  unfold Obligations.CsDecDecodesAddress
  refine ⟨onlyWord_encode rfl, illegalOtherwise_of_noOperand (i := .csDec) rfl, fun s h => ?decodes, fun s h => if_pos h⟩
  refine ⟨decodeAddr (addrAt s.csIn 0), ?_, exec_csDec_of_length h⟩
  rw [decodeAddr_toList, addrAt_zero_toList h]

/-! ## The round trip -/

theorem shiftLeft_ushiftRight_one {b : Byte} (h : b.toNat ≤ 0x7F) : b <<< 1 >>> 1 = b := by
  bv_omega

/-- Shifting right recovers what was shifted left, as no seven-bit code loses a bit (R175 item 1). -/
theorem map_ushiftRight_paddedShifted {base : Bytes} {x : Byte} (hbase : ∀ b ∈ base, b.toNat ≤ 0x7F) (hx : x.toNat ≤ 0x7F) :
    (paddedShifted base x).map (fun b : Byte => b >>> 1) = base ++ List.replicate (6 - base.length) 0x20 ++ [x] := by
  rw [paddedShifted, List.map_map]
  refine (List.map_congr_left fun b hb => shiftLeft_ushiftRight_one ?_).trans (List.map_id _)
  simp only [List.mem_append, List.mem_replicate, List.mem_singleton] at hb
  obtain (hb | ⟨-, rfl⟩) | rfl := hb
  · exact hbase b hb
  · decide
  · exact hx

/-- An encoded base and SSID are recovered through the two commands (R175 item 1). -/
theorem csEnc_csDec {s : State} {base : Bytes} {x d : Byte} {r : Addr} (hbase : ∀ b ∈ base, b.toNat ≤ 0x7F)
    (hx : x.toNat ≤ 0x7F) (hr : r.toList = paddedShifted base x) (henc : encodeCallsign s.csIn d = some r) :
    ∃ t z, exec (.csEnc d) s = .next t ∧ exec .csDec { t with csIn := t.csOut.toList } = .next z ∧ z.status = .ok ∧
      z.csOut.toList = base ++ List.replicate (6 - base.length) 0x20 ++ [x] := by
  refine ⟨_, _, exec_csEnc_of_encodes henc, exec_csDec_of_length r.length_toList, rfl, ?_⟩
  rw [decodeAddr_toList, addrAt_zero_toList r.length_toList, hr, map_ushiftRight_paddedShifted hbase hx]

/-- Settles O53: upper-casing leaves a base and a suffix without lower case as they are, and the shifts undo each other. -/
theorem csDecInvertsCsEnc : Obligations.CsDecInvertsCsEnc := by
  unfold Obligations.CsDecInvertsCsEnc
  intro s base c d h1 h6 hbase hc hd
  have hascii : ∀ b ∈ base, b.toNat ≤ 0x7F := fun b hb => (hbase b hb).1
  have hplain : ∀ b ∈ base, b.toNat ≤ 0x7F ∧ b ≠ 0x2D := fun b hb => ⟨(hbase b hb).1, (hbase b hb).2.1⟩
  have hupper : upperText base = base := upperText_of_noLower fun b hb => (hbase b hb).2.2
  refine ⟨?operand, fun hdash hlower => ?suffix⟩
  case operand =>
    obtain ⟨r, hr, henc⟩ := encodeCallsign_of_noDash hplain hc h1 h6
    rw [hupper] at hr
    exact csEnc_csDec hascii hc hr henc
  case suffix =>
    obtain ⟨r, hr, henc⟩ := encodeCallsign_of_suffix hplain hc hdash hd h1 h6
    rw [hupper, upperByte, if_neg hlower] at hr
    exact csEnc_csDec hascii hc hr henc

end Sys2Proof.Machine

/-! PROOFS. The header serializer (O16 to O18, O55, O57, O58): the header as a concatenation of encoded addresses, the two flags of
a wire sequence, the round trip through HDR.DES, and the detection of one changed info byte (R200 to R210, R243). -/

namespace Sys2Proof.Machine

open Sys2Proof

/-! ## The header -/

/-- `e` is the address of the path text `T` (R201). -/
abbrev Encodes (T : Bytes) (e : Addr) : Prop := encodeCallsign T 0x30 = some e

theorem encodeTexts_cons_eq_some_iff {T : Bytes} {L : List Bytes} {B : Bytes} :
    encodeTexts (T :: L) = some B ↔ ∃ e C, Encodes T e ∧ encodeTexts L = some C ∧ B = e.toList ++ C := by
  rw [encodeTexts, defaultSsid]
  unfold Encodes
  cases encodeCallsign T 0x30 <;> cases encodeTexts L <;> simp [eq_comm (b := B)]

/-- All texts are encoded, and the bytes are those of their addresses in order (R201). -/
theorem encodeTexts_eq_some_iff {L : List Bytes} {B : Bytes} :
    encodeTexts L = some B ↔ ∃ A, List.Forall₂ Encodes L A ∧ (A.map Vector.toList).flatten = B := by
  induction L generalizing B with
  | nil => simp [encodeTexts]
  | cons T L ih =>
    simp only [encodeTexts_cons_eq_some_iff, ih, List.forall₂_cons_left_iff]
    constructor
    · rintro ⟨e, _, he, ⟨A, hA, rfl⟩, rfl⟩
      exact ⟨e :: A, ⟨e, A, he, hA, rfl⟩, rfl⟩
    · rintro ⟨_, ⟨e, A, he, hA, rfl⟩, rfl⟩
      exact ⟨e, _, he, ⟨A, hA, rfl⟩, rfl⟩

theorem encodeTexts_eq_none_iff {L : List Bytes} : encodeTexts L = none ↔ ∃ T ∈ L, encodeCallsign T 0x30 = none := by
  induction L with
  | nil => simp [encodeTexts]
  | cons T L ih =>
    rw [List.exists_mem_cons_iff, ← ih, encodeTexts, defaultSsid]
    cases encodeCallsign T 0x30 <;> cases encodeTexts L <;> simp

theorem markEnd_append_singleton (front : Bytes) (last : Byte) : markEnd (front ++ [last]) = front ++ [last ||| 0x01] := by
  induction front with
  | nil => rfl
  | cons b front ih =>
    cases front with
    | nil => rfl
    | cons c front => exact congrArg (b :: ·) ih

/-- The path has a text, so its encoded addresses have a last byte (R201). -/
theorem exists_flatten_eq_append {L : List Bytes} {A : List Addr} (hA : List.Forall₂ Encodes L A) (hL : L ≠ []) :
    ∃ front last, (A.map Vector.toList).flatten = front ++ [last] := by
  cases hA with
  | nil => exact absurd rfl hL
  | @cons T e L A he hA =>
    have hne : ((e :: A).map Vector.toList).flatten ≠ [] := fun h => by
      simpa using congrArg List.length (List.append_eq_nil_iff.1 h).1
    exact ⟨_, _, (List.dropLast_append_getLast hne).symm⟩

/-- `header(FD)` exists in the states of `headerIs` and is the header named there (R201, R202). -/
theorem header_eq_some_iff {fd : Fd} {h : Bytes} : fd.header = some h ↔ headerIs fd h := by
  rw [Fd.header, Fd.addresses, Option.map_eq_some_iff, maxDigis]
  simp only [Option.ite_none_left_eq_some, Option.map_eq_some_iff, encodeTexts_eq_some_iff, Nat.not_lt]
  constructor
  · rintro ⟨_, ⟨hn, _, ⟨A, hA, rfl⟩, rfl⟩, rfl⟩
    obtain ⟨front, last, e⟩ := exists_flatten_eq_append hA (List.cons_ne_nil _ _)
    refine ⟨hn, A, front, last, hA, e, ?_⟩
    rw [e, markEnd_append_singleton, List.append_assoc]
    rfl
  · rintro ⟨hn, A, front, last, hA, e, rfl⟩
    refine ⟨_, ⟨hn, _, ⟨A, hA, e⟩, markEnd_append_singleton front last⟩, ?_⟩
    rw [List.append_assoc]
    rfl

/-- There is no header exactly on a structural error (R209). -/
theorem header_eq_none_iff {fd : Fd} : fd.header = none ↔ headerFails fd := by
  have htexts : encodeTexts fd.texts = none ↔ ∃ T ∈ pathTexts fd, encodeCallsign T 0x30 = none := encodeTexts_eq_none_iff
  rw [headerFails, ← htexts, Fd.header, Fd.addresses, Option.map_eq_none_iff, maxDigis]
  by_cases hn : 8 < fd.ndigi.toNat <;> simp [hn]

/-! ## The three commands with and without a header -/

section
variable {s : State} {h : Bytes}

theorem exec_hdrHdr_of_header (hh : headerIs s.fd h) : exec .hdrHdr s = emitObits (bitsOf h) s := by
  simp only [exec, execHdrHdr, header_eq_some_iff.2 hh]

theorem exec_hdrHdr_of_noHeader (hf : headerFails s.fd) : exec .hdrHdr s = raiseObits .structuralError s := by
  simp only [exec, execHdrHdr, header_eq_none_iff.2 hf]

theorem exec_hdrFcsf_of_header (hh : headerIs s.fd h) :
    exec .hdrFcsf s = complete (s.setFdFcs (frameFcs h s.fd.info)) := by
  simp only [exec, execHdrFcsf, header_eq_some_iff.2 hh]

theorem exec_hdrFcsf_of_noHeader (hf : headerFails s.fd) : exec .hdrFcsf s = raise .structuralError s := by
  simp only [exec, execHdrFcsf, header_eq_none_iff.2 hf]

theorem exec_hdrSer_of_header (hh : headerIs s.fd h) : exec .hdrSer s =
    if s.cfg.obitsMax < (wire (frameBytes h s.fd.info)).length then raiseObits .capacity s
    else complete ((s.setObits (wire (frameBytes h s.fd.info))).setFdFcs (frameFcs h s.fd.info)) := by
  simp only [exec, execHdrSer, header_eq_some_iff.2 hh]

theorem exec_hdrSer_of_noHeader (hf : headerFails s.fd) : exec .hdrSer s = raiseObits .structuralError s := by
  simp only [exec, execHdrSer, header_eq_none_iff.2 hf]

end

/-- Settles O16, by the two answers of `emitObits` on the header's bits. -/
theorem hdrHdrEmitsHeaderBits : Obligations.HdrHdrEmitsHeaderBits := by
  unfold Obligations.HdrHdrEmitsHeaderBits
  refine ⟨onlyWord_encode rfl, illegalOtherwise_of_noOperand (i := .hdrHdr) rfl, fun s h hh hfit => ?fits,
    fun s h hh hlt => ?overflows, fun s hf => exec_hdrHdr_of_noHeader hf⟩
  case fits => exact (exec_hdrHdr_of_header hh).trans (emitObits_fits ((bitsOf_length h).trans_le hfit))
  case overflows => exact (exec_hdrHdr_of_header hh).trans (emitObits_overflows (hlt.trans_eq (bitsOf_length h).symm))

/-- Settles O17: the two answers of HDR.FCSF. -/
theorem hdrFcsfComputesFrameFcs : Obligations.HdrFcsfComputesFrameFcs := by
  unfold Obligations.HdrFcsfComputesFrameFcs
  exact ⟨onlyWord_encode rfl, illegalOtherwise_of_noOperand (i := .hdrFcsf) rfl,
    fun s h hh => exec_hdrFcsf_of_header hh, fun s hf => exec_hdrFcsf_of_noHeader hf⟩

/-- The frame's bytes end in the two bytes of its FCS, low byte first (R56, R204). -/
theorem frameBytes_eq_of_fcs {h info : Bytes} {lo hi : Byte} (hfcs : hi ++ lo = frameFcs h info) :
    frameBytes h info = h ++ info ++ [lo, hi] := by
  rw [frameBytes, ← hfcs, wordBytes, lowByte_append, highByte_append]

@[simp] theorem frameBytes_length (h info : Bytes) : (frameBytes h info).length = h.length + info.length + 2 := by
  rw [frameBytes, List.length_append, List.length_append]
  rfl

theorem wire_length (B : Bytes) : (wire B).length = 16 + (stuff (bitsOf B)).length := by
  simp only [wire, List.length_append, flagBits, bitsOf_length, List.length_singleton]
  omega

/-- Settles O18: `wire` of the frame's bytes, against the capacity. -/
theorem hdrSerSerializesFrame : Obligations.HdrSerSerializesFrame := by
  unfold Obligations.HdrSerSerializesFrame
  refine ⟨onlyWord_encode rfl, illegalOtherwise_of_noOperand (i := .hdrSer) rfl, fun s h lo hi hh hfcs hfit => ?fits,
    fun s h lo hi hh hfcs hlt => ?overflows, fun s hf => exec_hdrSer_of_noHeader hf⟩
  case fits =>
    have hexec := exec_hdrSer_of_header hh
    rw [frameBytes_eq_of_fcs hfcs, if_neg (Nat.not_lt.2 ((wire_length _).trans_le hfit))] at hexec
    rw [hfcs]
    exact hexec
  case overflows =>
    have hexec := exec_hdrSer_of_header hh
    rw [frameBytes_eq_of_fcs hfcs, if_pos (hlt.trans_eq (wire_length _).symm)] at hexec
    exact hexec

/-- HDR.SER that ends with STATUS OK had a header, and left the frame's wire form and FCS (R208). -/
theorem exec_hdrSer_ok {s t : State} (ht : exec .hdrSer s = .next t) (hok : t.status = .ok) :
    ∃ h, headerIs s.fd h ∧
      t = ((s.setObits (wire (frameBytes h s.fd.info))).setFdFcs (frameFcs h s.fd.info)).setStatus .ok := by
  change execHdrSer s = .next t at ht
  obtain ⟨-, e⟩ | ⟨h, hh, ⟨-, e⟩ | ⟨-, e⟩⟩ := execHdrSer_cases s
  · cases e.symm.trans ht; cases hok
  · cases e.symm.trans ht; cases hok
  · exact ⟨h, header_eq_some_iff.1 hh, complete_eq_next.1 (e.symm.trans ht)⟩

/-! ## The two flags of a wire sequence -/

/-- A flag at `k` holds a 0 at most at its two ends (R205). -/
theorem flagAt_apart_of_zero {s : Bits} {k z : Nat} (h : flagAt s k) (hz : s[z]? = some false) : z ≤ k ∨ k + 7 ≤ z := by
  by_contra hin
  obtain ⟨j, rfl⟩ := Nat.exists_eq_add_of_le (show k ≤ z by omega)
  have hj : 1 ≤ j ∧ j ≤ 6 := by omega
  have hpattern : flagPattern[j]? = some false := by
    rw [← show (s.drop k).take 8 = flagPattern from h, List.getElem?_take_of_lt (by omega), List.getElem?_drop, hz]
  obtain ⟨h1, h6⟩ := hj
  interval_cases j <;> cases hpattern

theorem six_ones_of_flagAt {s : Bits} {k : Nat} (h : flagAt s k) : (s.drop (k + 1)).take 6 = List.replicate 6 true := by
  calc (s.drop (k + 1)).take 6
    _ = (((s.drop k).take 8).drop 1).take 6 := by rw [List.drop_take, List.drop_drop, List.take_take]; rfl
    _ = (flagPattern.drop 1).take 6 := by rw [show (s.drop k).take 8 = flagPattern from h]

/-- Between two flags, bits with no run of six ones make no further flag: the flags' own zeros confine its ones to the bits
between (R205). -/
theorem flagAt_between_flags_iff {s : Bits} (hs : ¬ List.replicate 6 true <:+: s) {k : Nat} :
    flagAt (flagPattern ++ s ++ flagPattern) k ↔ k = 0 ∨ k = 8 + s.length := by
  have hl : (flagPattern ++ s).length = 8 + s.length := by rw [List.length_append]; rfl
  constructor
  · intro h
    have hfirst : 7 ≤ k ∨ k + 7 ≤ 7 := flagAt_apart_of_zero h rfl
    have hsecond : 8 + s.length ≤ k ∨ k + 7 ≤ 8 + s.length := by
      refine flagAt_apart_of_zero h ?_
      rw [← hl, List.getElem?_append_right (Nat.le_refl _), Nat.sub_self]
      rfl
    have hend : k + 8 ≤ 8 + s.length + 8 := by
      rw [← hl]
      exact (flagAt_length h).trans_eq List.length_append
    by_contra hk
    obtain ⟨j, rfl⟩ := Nat.exists_eq_add_of_le (show 7 ≤ k by omega)
    refine hs (six_ones_of_flagAt h ▸ ?_)
    have hdrop : (flagPattern ++ s ++ flagPattern).drop (7 + j + 1) = s.drop j ++ flagPattern := by
      rw [List.append_assoc, show 7 + j + 1 = flagPattern.length + j by simp [flagPattern]; omega,
        List.drop_length_add_append, List.drop_append_of_le_length (by omega)]
    rw [hdrop, List.take_append_of_le_length (by rw [List.length_drop]; omega)]
    exact (List.take_prefix _ _).isInfix.trans (List.drop_suffix _ _).isInfix
  · rintro (rfl | rfl)
    · rfl
    · show ((flagPattern ++ s ++ flagPattern).drop _).take 8 = _
      rw [← hl, List.drop_left]
      rfl

/-- R204 and R205: the flag pattern stands at the two ends of a wire sequence only. -/
theorem flagAt_wire_iff {B : Bytes} {k : Nat} : flagAt (wire B) k ↔ k = 0 ∨ k = 8 + (stuff (bitsOf B)).length :=
  flagAt_between_flags_iff (not_six_ones_infix_stuffFrom (Nat.zero_le 4) _)

/-- Settles O55, by `flagAt_wire_iff`. -/
theorem serializedFrameHasExactlyTwoFlags : Obligations.SerializedFrameHasExactlyTwoFlags := by
  unfold Obligations.SerializedFrameHasExactlyTwoFlags
  intro s t ht hok
  obtain ⟨h, -, rfl⟩ := exec_hdrSer_ok ht hok
  have hlength := wire_length (frameBytes h s.fd.info)
  refine ⟨(Nat.le_add_right 16 _).trans_eq hlength.symm, fun k => flagAt_wire_iff.trans ?_⟩
  show _ ↔ k = 0 ∨ k = (wire (frameBytes h s.fd.info)).length - 8
  omega

/-! ## The round trip -/

/-- The body between a wire sequence's flags unstuffs to the bits that were stuffed (R210 item 3, R231, R232). -/
theorem bodyBits_of_wire (B : Bytes) : bodyBits (wire B) (bitsOf B) := by
  refine ⟨0, 8 + (stuff (bitsOf B)).length, ⟨Nat.le_refl 0, flagAt_wire_iff.2 (.inl rfl), fun _ _ h => by omega⟩,
    ⟨by omega, flagAt_wire_iff.2 (.inr rfl), fun k h8 hk hf => ?_⟩, ?_⟩
  · obtain rfl | rfl := flagAt_wire_iff.1 hf <;> omega
  · have hslice := slice_append flagBits (stuff (bitsOf B)) flagBits
    rw [slice] at hslice
    exact (unstuff_stuff _).symm.trans (congrArg unstuff hslice.symm)

/-- A body whose least marker stands after k ≤ 8 whole digipeaters, with a trailer after it and an info field that fits, is
decoded (R235 to R238). -/
theorem splitBody_of_marker {maxInfo k : Nat} {B : Bytes} (hm : markerAt B (14 + 7 * k))
    (hmin : ∀ i, 14 ≤ i → i < 14 + 7 * k → ¬ markerAt B i) (hk : k ≤ 8) (hl : 14 + 7 * k + 4 ≤ B.length)
    (hinfo : B.length - (14 + 7 * k + 4) ≤ maxInfo) :
    splitBody maxInfo B = .ok (Rx.decoded B (14 + 7 * k) k (integrity B)) := by
  obtain ⟨-, hnone⟩ | ⟨j, hj14, hj, hjmin, hcases⟩ := splitBody_cases maxInfo B
  · exact absurd hm (hnone _ (by omega))
  · obtain rfl : j = 14 + 7 * k :=
      Nat.le_antisymm (Nat.not_lt.1 fun h => hjmin _ (by omega) h hm) (Nat.not_lt.1 fun h => hmin j hj14 h hj)
    obtain ⟨-, h⟩ | ⟨-, -, -, ⟨-, h⟩ | ⟨e, -⟩⟩ := hcases
    · omega
    · omega
    · rw [e, show (14 + 7 * k - 14) / 7 = k by omega]

/-- Bit 0 of every encoded byte is 0, so it can carry the end-of-address mark (R170, R201). -/
theorem getLsbD_zero_of_mem_flatten {L : List Bytes} {A : List Addr} (hA : List.Forall₂ Encodes L A) :
    ∀ b ∈ (A.map Vector.toList).flatten, b.getLsbD 0 = false := by
  induction hA with
  | nil => exact fun _ hb => nomatch hb
  | cons he _ ih =>
    obtain ⟨-, -, raw, -, -, rfl⟩ := encodeCallsign_eq_some he
    refine List.forall_mem_append.2 ⟨fun b hb => ?_, ih⟩
    obtain ⟨i, hi, rfl⟩ := List.mem_iff_getElem.1 hb
    exact shiftLeft7_low raw i (by simpa using hi)

/-- No marker starts in the addresses of a UI frame: its first byte is odd, and before the control byte only the last address
byte is (R210 item 3, R235). -/
theorem not_markerAt_of_low {front tail : Bytes} {x : Byte} {i : Nat} (hlow : ∀ b ∈ front, b.getLsbD 0 = false)
    (hi : i ≤ front.length) : ¬ markerAt (front ++ x :: 0x03 :: tail) i := by
  rintro ⟨h03, hF0⟩
  obtain hi | rfl := Nat.lt_or_eq_of_le hi
  · rw [List.getElem?_append_left hi, List.getElem?_eq_getElem hi, Option.some.injEq] at h03
    have := hlow _ (List.getElem_mem hi)
    rw [h03] at this
    cases this
  · rw [List.getElem?_append_right (Nat.le_succ _), Nat.succ_sub (Nat.le_refl _), Nat.sub_self] at hF0
    cases hF0

theorem flatten_addrs_length (A : List Addr) : (A.map Vector.toList).flatten.length = 7 * A.length := by
  induction A with
  | nil => rfl
  | cons e A ih =>
    rw [List.map_cons, List.flatten_cons, List.length_append, ih, Vector.length_toList, List.length_cons]
    omega

/-- The path of a frame descriptor is two callsigns and its digipeaters (R200). -/
theorem pathTexts_length {fd : Fd} (hn : fd.ndigi.toNat ≤ 8) : (pathTexts fd).length = 2 + fd.ndigi.toNat := by
  simp [pathTexts, hn]
  omega

theorem ushiftRight_or_one (b : Byte) : (b ||| 0x01) >>> 1 = b >>> 1 :=
  (BitVec.ushiftRight_or_distrib b 0x01 1).trans BitVec.or_zero

theorem decodeAddr_addrAt (B : Bytes) (p : Nat) : decodeAddr (addrAt B p) = addrAt (B.map fun b : Byte => b >>> 1) p := by
  ext i hi : 1
  simp only [decodeAddr_getElem, addrAt, Vector.getElem_ofFn]
  exact (List.getD_map B 0 fun b : Byte => b >>> 1).symm

/-- The end-of-address mark falls out of a decoded address, so the i-th address of a frame decodes as the encoding of the i-th
text of the path does (R172, R201). -/
theorem decodeAddr_addrAt_of_encodes {L : List Bytes} {A : List Addr} {front tail T : Bytes} {last : Byte} {i : Nat}
    (hA : List.Forall₂ Encodes L A) (hflat : (A.map Vector.toList).flatten = front ++ [last]) (hT : L[i]? = some T) :
    (encodeCallsign T 0x30).map decodeAddr = some (decodeAddr (addrAt (front ++ (last ||| 0x01) :: tail) (7 * i))) := by
  obtain ⟨hiL, rfl⟩ := List.getElem?_eq_some_iff.1 hT
  have hiA : i < A.length := hA.length_eq ▸ hiL
  have he : Encodes L[i] A[i] := hA.get hiL hiA
  have hsplit : front ++ [last]
      = ((A.take i).map Vector.toList).flatten ++ A[i].toList ++ ((A.drop (i + 1)).map Vector.toList).flatten := by
    rw [← hflat, List.append_assoc, ← List.flatten_cons, ← List.map_cons, List.getElem_cons_drop, ← List.flatten_append,
      ← List.map_append, List.take_append_drop]
  have hmap : (front ++ (last ||| 0x01) :: tail).map (fun b : Byte => b >>> 1)
      = (front ++ [last] ++ tail).map (fun b : Byte => b >>> 1) := by
    simp only [List.map_append, List.map_cons, ushiftRight_or_one, List.append_assoc, List.cons_append, List.nil_append]
  rw [show encodeCallsign L[i] 0x30 = some A[i] from he, decodeAddr_addrAt, hmap, hsplit, ← decodeAddr_addrAt,
    List.append_assoc _ _ tail]
  refine congrArg (fun e => some (decodeAddr e)) (Vector.toList_inj.1 (addrAt_append _ _ _ _ ?_ A[i].length_toList).symm)
  rw [flatten_addrs_length, List.length_take, Nat.min_eq_left hiA.le]

/-- The frame's FCS is over the bytes that the integrity check folds (R203, R234). -/
theorem frameBytes_integrity (h info : Bytes) : integrity (frameBytes h info) = .fcsOk :=
  integrity_of_is (.inr ⟨h ++ info, _, _, rfl, (if_pos (wordOfBytes_lowByte_highByte _).symm).symm⟩)

theorem frameBytes_trailer (h info : Bytes) : bodyTrailer (frameBytes h info) = frameFcs h info :=
  (bodyTrailer_append _ _ _).trans (wordOfBytes_lowByte_highByte _)

theorem headerIs_length {fd : Fd} {h : Bytes} (hh : headerIs fd h) : h.length = 14 + 7 * fd.ndigi.toNat + 2 := by
  obtain ⟨hn, A, front, last, hA, hflat, rfl⟩ := hh
  have hl := congrArg List.length hflat
  rw [flatten_addrs_length, ← hA.length_eq, pathTexts_length hn, List.length_append, List.length_singleton] at hl
  rw [List.length_append]
  simp only [List.length_cons, List.length_nil]
  omega

/-- HDR.DES parses the wire form of a UI frame whose info field fits as the frame's bytes, with the marker right after the path
(R210 item 3). -/
theorem parse_wire_frame {fd : Fd} {h info : Bytes} {maxInfo : Nat} (hh : headerIs fd h) (hctrl : fd.ctrl = 0x03)
    (hpid : fd.pid = 0xF0) (hinfo : info.length ≤ maxInfo) : parse maxInfo (wire (frameBytes h info))
      = Rx.decoded (frameBytes h info) (14 + 7 * fd.ndigi.toNat) fd.ndigi.toNat .fcsOk := by
  have hlength := headerIs_length hh
  obtain ⟨hn, A, front, last, hA, hflat, rfl⟩ := hh
  rw [hctrl, hpid] at hlength ⊢
  have hframe : (frameBytes (front ++ [last ||| 0x01, 0x03, 0xF0]) info).length
      = 14 + 7 * fd.ndigi.toNat + 4 + info.length := by
    rw [frameBytes_length, hlength]
    omega
  have hfront : front.length + 1 = 14 + 7 * fd.ndigi.toNat := by simpa using hlength
  have hlow : ∀ b ∈ front, b.getLsbD 0 = false := fun b hb =>
    getLsbD_zero_of_mem_flatten hA b (hflat ▸ List.mem_append_left _ hb)
  rw [parse_of_body (bodyBits_of_wire _), splitBody_of_marker ?marker ?least hn (by omega) (by omega),
    frameBytes_integrity]
  case marker =>
    rw [frameBytes, List.append_assoc, List.append_assoc, ← hfront, ← markerAt_drop, List.drop_left]
    exact ⟨rfl, rfl⟩
  case least =>
    intro i _ hi
    rw [frameBytes, List.append_assoc, List.append_assoc]
    exact not_markerAt_of_low hlow (by omega)

/-- HDR.DES on what HDR.SER left of a UI frame (R210 item 3). -/
theorem exec_hdrDes_of_wire {s : State} {fd : Fd} {h info : Bytes} (hibits : s.ibits = wire (frameBytes h info))
    (hh : headerIs fd h) (hctrl : fd.ctrl = 0x03) (hpid : fd.pid = 0xF0) (hinfo : info.length ≤ s.cfg.maxInfoBytes) :
    exec .hdrDes s = .next
      ((s.setRx (Rx.decoded (frameBytes h info) (14 + 7 * fd.ndigi.toNat) fd.ndigi.toNat .fcsOk)).setStatus .ok) := by
  have hexec := execHdrDes_eq s
  rw [hibits, parse_wire_frame hh hctrl hpid hinfo] at hexec
  exact hexec

/-- The i-th text of the path, encoded and decoded, is the i-th address of the frame's body (R210 item 3). -/
theorem decodeAddr_addrAt_frame {fd : Fd} {h T : Bytes} {i : Nat} (hh : headerIs fd h) (info : Bytes)
    (hT : (pathTexts fd)[i]? = some T) :
    (encodeCallsign T 0x30).map decodeAddr = some (decodeAddr (addrAt (frameBytes h info) (7 * i))) := by
  obtain ⟨-, A, front, last, hA, hflat, rfl⟩ := hh
  rw [frameBytes, List.append_assoc, List.append_assoc]
  exact decodeAddr_addrAt_of_encodes hA hflat hT

/-- Settles O57: HDR.DES parses the frame's bytes, in which each field of RX has its place. -/
theorem hdrDesRecoversSerializedUiFrame : Obligations.HdrDesRecoversSerializedUiFrame := by
  unfold Obligations.HdrDesRecoversSerializedUiFrame
  intro s t hctrl hpid hinfo ht hok
  obtain ⟨h, hh, rfl⟩ := exec_hdrSer_ok ht hok
  refine ⟨_, exec_hdrDes_of_wire rfl hh hctrl hpid hinfo, rfl, rfl, decodeAddr_addrAt_frame (i := 0) hh _ rfl,
    decodeAddr_addrAt_frame (i := 1) hh _ rfl, (BitVec.ofNat_toNat _ _).trans (BitVec.setWidth_eq _), fun i hi => ?digi,
    ?info, frameBytes_trailer h _, rfl⟩
  case digi =>
    have hT : (pathTexts s.fd)[i.val + 2]? = some s.fd.digiTxt[i] := by
      simp [pathTexts, List.getElem?_take_of_lt hi]
    refine (decodeAddr_addrAt_frame hh s.fd.info hT).trans (congrArg some ?_)
    refine ((digisOf_getElem _ _ _ i.isLt).trans ?_).symm
    rw [if_pos hi, show 14 + 7 * i.val = 7 * (i.val + 2) by omega]
  case info =>
    show slice (frameBytes h s.fd.info) (14 + 7 * s.fd.ndigi.toNat + 2) _ = s.fd.info
    rw [frameBytes_length, Nat.add_sub_cancel, ← headerIs_length hh]
    exact slice_append _ _ _

/-! ## One changed info byte -/

theorem updateByte_xor (a b : Word) (x y : Byte) : updateByte (a ^^^ b) (x ^^^ y) = updateByte a x ^^^ updateByte b y := by
  simp only [updateByte, msbBits, List.foldl_cons, List.foldl_nil, BitVec.getLsbD_xor, updateBit_xor]

/-- The eight steps of a byte from accumulator 0 lose no bit of it (R141). -/
theorem updateByte_zero_eq_zero : ∀ {d : Byte}, updateByte 0 d = 0 → d = 0 := by
  decide +kernel

/-- The CRC is linear, so two bytes that lead from one accumulator to the same one differ by a byte that leads from 0 to 0. -/
theorem updateByte_right_injective (st : Word) : Function.Injective (updateByte st) := fun x y hxy => by
  have hd : updateByte 0#16 (x ^^^ y) = 0#16 := by
    calc updateByte 0#16 (x ^^^ y)
      _ = updateByte (st ^^^ st) (x ^^^ y) := by rw [BitVec.xor_self]
      _ = updateByte st x ^^^ updateByte st y := updateByte_xor st st x y
      _ = 0#16 := by rw [hxy, BitVec.xor_self]
  exact BitVec.xor_eq_zero_iff.1 (updateByte_zero_eq_zero hd)

/-- After two different bytes no common rest brings the accumulators together again (R243 item 3). -/
theorem frameFcs_ne_of_byte_ne {x y : Byte} (hxy : x ≠ y) (h A C : Bytes) :
    frameFcs h (A ++ x :: C) ≠ frameFcs h (A ++ y :: C) := fun he => by
  have hcrc : crcBytes (h ++ (A ++ x :: C)) = crcBytes (h ++ (A ++ y :: C)) := digest_injective he
  simp only [← List.append_assoc, crcBytes_append _ (_ :: C), update_cons] at hcrc
  exact hxy (updateByte_right_injective _ (update_injective C hcrc))

/-- HDR.FCSF that ends with STATUS OK had a header, and wrote FD.FCS (R207). -/
theorem exec_hdrFcsf_ok {s t : State} (ht : exec .hdrFcsf s = .next t) (hok : t.status = .ok) :
    ∃ h, s.fd.header = some h ∧ t.fd.fcs = frameFcs h s.fd.info := by
  change execHdrFcsf s = .next t at ht
  obtain ⟨-, e⟩ | ⟨h, hh, e⟩ := execHdrFcsf_cases s
  · cases e.symm.trans ht; cases hok
  · cases e.symm.trans ht; exact ⟨h, hh, rfl⟩

/-- Settles O58: both descriptors have the same header, which does not read the info field (R201, R202). -/
theorem oneInfoByteChangesFrameFcs : Obligations.OneInfoByteChangesFrameFcs := by
  unfold Obligations.OneInfoByteChangesFrameFcs
  intro s t t' A C x y hxy ht hok ht' hok'
  obtain ⟨h, hh, hfcs⟩ := exec_hdrFcsf_ok ht hok
  obtain ⟨h', hh', hfcs'⟩ := exec_hdrFcsf_ok ht' hok'
  obtain rfl : h = h' := Option.some.inj (hh.symm.trans hh')
  rw [hfcs, hfcs']
  exact frameFcs_ne_of_byte_ne hxy h A C

end Sys2Proof.Machine

/-! PROOFS. The header deserializer (O19, O20): HDR.DES writes the record that `parse` answers, the sentinel of each stage in the
order of R241, and the place of each field of a decoded frame in its body (R230 to R241). -/

namespace Sys2Proof.Machine

open Sys2Proof

/-! ## From the parse to the command -/

/-- HDR.DES writes the record of the parse, and its reason to STATUS (R238 to R240). -/
theorem exec_hdrDes_of_parse {s : State} {r : Rx} (h : parse s.cfg.maxInfoBytes s.ibits = r) :
    exec .hdrDes s = .next { s with rx := r, status := r.reason } := by
  subst h
  exact execHdrDes_eq s

/-! ## The failures, stage by stage -/

theorem extractBody_of_missingFlag {s : Bits} (h : noFlag s 0 ∨ ∃ s1, firstFlag s 0 s1 ∧ noFlag s (s1 + 8)) :
    extractBody s = .error .frameNotFound := by
  obtain h1 | ⟨s1, h1, h2⟩ := h
  · rw [extractBody, findFlag_eq_none.2 h1]
  · simp only [extractBody, findFlag_eq_some.2 h1, findFlag_eq_none.2 h2]

theorem parse_of_missingFlag {s : Bits} (h : noFlag s 0 ∨ ∃ s1, firstFlag s 0 s1 ∧ noFlag s (s1 + 8)) (maxInfo : Nat) :
    parse maxInfo s = Rx.sentinel .frameNotFound .notChecked := by
  rw [parse, extractBody_of_missingFlag h]

theorem parse_of_partialByte {s u : Bits} (hb : bodyBits s u) (hu : u.length % 8 ≠ 0) (maxInfo : Nat) :
    parse maxInfo s = Rx.sentinel .malformed .notChecked := by
  simp only [parse, extractBody_eq_ok.2 hb, if_pos hu]

/-- A body of whole bytes that the split refuses leaves the sentinel, with the integrity result that came before (R234, R239). -/
theorem exec_hdrDes_of_split_error {s : State} {B : Bytes} {f : FcsSt} {E : Status} (hb : bodyBits s.ibits (bitsOf B))
    (hf : integrityIs B f) (hs : splitBody s.cfg.maxInfoBytes B = .error E) :
    exec .hdrDes s = .next { s with rx := Rx.sentinel E f, status := E } :=
  exec_hdrDes_of_parse (by rw [parse_of_body hb, hs, integrity_of_is hf])

theorem splitBody_of_noMarker {B : Bytes} (h : ∀ k, 14 ≤ k → ¬ markerAt B k) (maxInfo : Nat) :
    splitBody maxInfo B = .error .headerMarkerNotFound := by
  rw [splitBody, findMarker_eq_none.2 h]

section
variable {B : Bytes} {j : Nat} (h14 : 14 ≤ j) (hm : markerAt B j) (hmin : ∀ k, 14 ≤ k → k < j → ¬ markerAt B k)
include h14 hm hmin

/-- What the split of a body answers when its first marker from byte 14 on is at `j` (R235 to R237, R241). -/
theorem splitBody_cases_of_firstMarker (maxInfo : Nat) :
    (splitBody maxInfo B = .error .malformed ∧ (B.length < j + 4 ∨ (j - 14) % 7 ≠ 0 ∨ 14 + 7 * 8 < j)) ∨
    (j + 4 ≤ B.length ∧ (j - 14) % 7 = 0 ∧ j ≤ 14 + 7 * 8 ∧
      ((splitBody maxInfo B = .error .capacity ∧ maxInfo < B.length - (j + 4)) ∨
       (splitBody maxInfo B = .ok (Rx.decoded B j ((j - 14) / 7) (integrity B)) ∧ B.length - (j + 4) ≤ maxInfo))) := by
  obtain ⟨-, hnone⟩ | ⟨i, hi14, hi, himin, hcases⟩ := splitBody_cases maxInfo B
  · exact absurd hm (hnone j h14)
  · have hfound := findMarker_eq_some.2 ⟨h14, hm, hmin⟩
    obtain rfl : j = i := Option.some.inj (hfound.symm.trans (findMarker_eq_some.2 ⟨hi14, hi, himin⟩))
    exact hcases

theorem splitBody_of_misplacedMarker (hbad : B.length < j + 4 ∨ (j - 14) % 7 ≠ 0 ∨ 14 + 7 * 8 < j) (maxInfo : Nat) :
    splitBody maxInfo B = .error .malformed := by
  obtain ⟨e, -⟩ | ⟨hl, h7, h8, -⟩ := splitBody_cases_of_firstMarker h14 hm hmin maxInfo
  · exact e
  · omega

theorem splitBody_of_longInfo {maxInfo : Nat} (hl : j + 4 ≤ B.length) (h7 : (j - 14) % 7 = 0) (h8 : j ≤ 14 + 7 * 8)
    (hinfo : maxInfo < B.length - (j + 4)) : splitBody maxInfo B = .error .capacity := by
  obtain ⟨-, hbad⟩ | ⟨-, -, -, ⟨e, -⟩ | ⟨-, hfits⟩⟩ := splitBody_cases_of_firstMarker h14 hm hmin maxInfo
  · omega
  · exact e
  · omega

end

/-- Settles O20: each clause is the stage of R241 at which the parse stops. -/
theorem hdrDesFailuresWriteSentinel : Obligations.HdrDesFailuresWriteSentinel := by
  unfold Obligations.HdrDesFailuresWriteSentinel
  refine ⟨fun s h => ?missingFlag, fun s u hb hu => ?partialByte, fun s B f hb hf hnone => ?noMarker,
    fun s B f j hb hf h14 hm hmin hbad => ?misplacedMarker, fun s B f j hb hf h14 hm hmin hl h7 h8 hinfo => ?longInfo⟩
  case missingFlag => exact exec_hdrDes_of_parse (parse_of_missingFlag h _)
  case partialByte => exact exec_hdrDes_of_parse (parse_of_partialByte hb hu _)
  case noMarker => exact exec_hdrDes_of_split_error hb hf (splitBody_of_noMarker hnone _)
  case misplacedMarker => exact exec_hdrDes_of_split_error hb hf (splitBody_of_misplacedMarker h14 hm hmin hbad _)
  case longInfo => exact exec_hdrDes_of_split_error hb hf (splitBody_of_longInfo h14 hm hmin hl h7 h8 hinfo)

/-! ## The fields of a decoded frame -/

/-- The marker right after `A` (R235). -/
theorem markerAt_of_prefix {A B : Bytes} (h : A ++ [0x03, 0xF0] <+: B) : markerAt B A.length := by
  obtain ⟨C, rfl⟩ := h
  rw [← Nat.add_zero A.length, ← markerAt_drop, List.append_assoc, List.drop_left]
  exact ⟨rfl, rfl⟩

/-- HDR.DES on a body whose least marker stands after k ≤ 8 whole digipeaters, with a trailer after it and an info field that
fits (R235 to R238). -/
theorem exec_hdrDes_of_marker {s : State} {B : Bytes} {f : FcsSt} {k : Nat} (hb : bodyBits s.ibits (bitsOf B))
    (hf : integrityIs B f) (hm : markerAt B (14 + 7 * k)) (hmin : ∀ i, 14 ≤ i → i < 14 + 7 * k → ¬ markerAt B i)
    (hk : k ≤ 8) (hl : 14 + 7 * k + 4 ≤ B.length) (hinfo : B.length - (14 + 7 * k + 4) ≤ s.cfg.maxInfoBytes) :
    exec .hdrDes s = .next { s with rx := Rx.decoded B (14 + 7 * k) k f, status := .ok } :=
  exec_hdrDes_of_parse (by rw [parse_of_body hb, splitBody_of_marker hm hmin hk hl hinfo, integrity_of_is hf])

/-- The info field stands between the marker and the trailer (R236). -/
theorem slice_info_of_eq_append {A B info : Bytes} {lo hi : Byte} (hB : B = A ++ [0x03, 0xF0] ++ info ++ [lo, hi]) :
    slice B (A.length + 2) (B.length - 2) = info := by
  have hend : B.length - 2 = A.length + 2 + info.length := by
    rw [hB, List.length_append, List.length_append, List.length_append]
    exact Nat.add_sub_cancel _ 2
  have hslice := slice_append (A ++ [0x03, 0xF0]) info [lo, hi]
  rw [List.length_append] at hslice
  rw [hend, hB]
  exact hslice

/-- The decoded 7 bytes that stand after `A` (R172, R237). -/
theorem decodeAddr_addrAt_of_prefix {A B D : Bytes} {p : Nat} (hp : p = A.length) (hD : D.length = 7) (h : A ++ D <+: B) :
    (decodeAddr (addrAt B p)).toList = D.map fun b : Byte => b >>> 1 := by
  obtain ⟨C, rfl⟩ := h
  rw [decodeAddr_toList, addrAt_append A D C p hp hD]

/-- The i-th of the k digipeaters that stand after `A` (R236, R237). -/
theorem decodeAddr_addrAt_digi {A B digis : Bytes} {i k : Nat} (hdigis : digis.length = 7 * k) (hi : i < k)
    (h : A ++ digis <+: B) : (decodeAddr (addrAt B (A.length + 7 * i))).toList
      = ((digis.drop (7 * i)).take 7).map fun b : Byte => b >>> 1 := by
  have hpos : A.length + 7 * i = (A ++ digis.take (7 * i)).length := by
    rw [List.length_append, List.length_take]
    omega
  have hseven : ((digis.drop (7 * i)).take 7).length = 7 := by
    rw [List.length_take, List.length_drop]
    omega
  refine decodeAddr_addrAt_of_prefix hpos hseven (.trans ?_ h)
  rw [List.append_assoc, ← List.take_add]
  exact (List.prefix_append_right_inj A).2 (List.take_prefix _ _)

/-- Settles O19: the marker after the digipeaters is the one the scan finds, and each field of RX is the part of the body that
the frame's layout puts there. -/
theorem hdrDesDecodesFrame : Obligations.HdrDesDecodesFrame := by
  unfold Obligations.HdrDesDecodesFrame
  refine ⟨onlyWord_encode rfl, illegalOtherwise_of_noOperand (i := .hdrDes) rfl, ?_⟩
  intro s B dest src digis info k lo hi hb hB hdest hsrc hdigis hk hinfo hmin
  have hpath : (dest ++ src).length = 14 := by rw [List.length_append, hdest, hsrc]
  have hfront : (dest ++ src ++ digis).length = 14 + 7 * k := by rw [List.length_append, hpath, hdigis]
  have hlength : B.length = 14 + 7 * k + 4 + info.length := by
    simp only [hB, List.length_append, hfront, List.length_cons, List.length_nil]
    omega
  have hmarked : dest ++ src ++ digis ++ [0x03, 0xF0] <+: B :=
    ⟨info ++ [lo, hi], (List.append_assoc _ _ _).symm.trans hB.symm⟩
  have hdigisAt : dest ++ src ++ digis <+: B := (List.prefix_append _ _).trans hmarked
  have hsrcAt : dest ++ src <+: B := (List.prefix_append _ _).trans hdigisAt
  have hdestAt : dest <+: B := (List.prefix_append _ _).trans hsrcAt
  have hmarker : markerAt B (14 + 7 * k) := hfront ▸ markerAt_of_prefix hmarked
  obtain ⟨hctrl, hpid⟩ := markerAt_bytes hmarker
  refine ⟨_, exec_hdrDes_of_marker hb (.inr ⟨_, lo, hi, hB, rfl⟩) hmarker hmin hk (by omega) (by omega), rfl, rfl, rfl,
    decodeAddr_addrAt_of_prefix (A := []) rfl hdest hdestAt, decodeAddr_addrAt_of_prefix hdest.symm hsrc hsrcAt, ?ndigi,
    fun i hik => ?used, fun i hik => ?unused, hctrl, hpid, ?info, ?trailer⟩
  case ndigi =>
    show (BitVec.ofNat 4 k).toNat = k
    rw [BitVec.toNat_ofNat, Nat.mod_eq_of_lt (by omega)]
  case used =>
    show (digisOf B k)[i.val].toList = _
    rw [digisOf_getElem B k i i.isLt, if_pos hik, ← hpath]
    exact decodeAddr_addrAt_digi hdigis hik hdigisAt
  case unused => exact (digisOf_getElem B k i i.isLt).trans (if_neg (Nat.not_lt.2 hik))
  case info =>
    show slice B (14 + 7 * k + 2) (B.length - 2) = info
    rw [← hfront]
    exact slice_info_of_eq_append hB
  case trailer => exact (congrArg bodyTrailer hB).trans (bodyTrailer_append _ lo hi)

end Sys2Proof.Machine

/-! PROOFS. The block control commands (O1, O2): RST's clearing as one record update, and NOP (R270, R271). -/

namespace Sys2Proof.Machine

open Sys2Proof

/-! ## RST -/

/-- The setters of RST's clearing together: each core-written field at its reset value, and of FD only the FCS (R270). -/
theorem State.clearCoreState_eq (s : State) : s.clearCoreState = { s with
    stfCnt := 0, unsCnt := 0, unsSkip := false, fcsCrc := 0xFFFF, bres := ⟨0, false, false⟩, obits := [],
    csOut := Addr.zero, fd := { s.fd with fcs := 0x0000 }, rx := Rx.reset } := rfl

/-- RST completes on the cleared state (R270, R301). -/
theorem exec_rst (s : State) : exec .rst s = .next (s.clearCoreState.setStatus .ok) := rfl

/-- Settles O1: the one word is the encoding, and the meaning is the clearing with STATUS OK. -/
theorem rstResetsCoreStateKeepsInputs : Obligations.RstResetsCoreStateKeepsInputs := by
  unfold Obligations.RstResetsCoreStateKeepsInputs
  refine ⟨onlyWord_encode rfl, illegalOtherwise_of_noOperand (i := .rst) rfl, fun s => ?_⟩
  rw [exec_rst, State.clearCoreState_eq, State.setStatus_eq]

/-! ## NOP -/

/-- Settles O2: the one word is the encoding, and the meaning is the completion alone. -/
theorem nopSetsStatusOkOnly : Obligations.NopSetsStatusOkOnly := by
  unfold Obligations.NopSetsStatusOkOnly
  exact ⟨onlyWord_encode rfl, illegalOtherwise_of_noOperand (i := .nop) rfl, fun _ => rfl⟩

end Sys2Proof.Machine

/-! PROOFS. The exceptions (O30, O31) and the idle core (O26): each command completes or raises one of its codes (R301, R303), and
what it then leaves (R304). -/

namespace Sys2Proof.Machine

open Sys2Proof

/-! ## How a command ends -/

/-- The write of STATUS apart, what command `i` makes of `s` when it fails with `E`: the row of `i` in R304. The commands whose
row of R303 is empty do not fail. -/
def FailureWritesOf (i : Instr) (E : Status) (s t : State) : Prop :=
  match i with
  | .stfSeq | .unsSeq | .fcsApp | .fcsVal | .hdrHdr | .hdrSer => t = s.setObits []
  | .csEnc _ | .csDec => t = s.setCsOut Addr.zero
  | .hdrFcsf => t = s
  | .hdrDes => ∃ f, t = s.setRx (Rx.sentinel E f)
  | .rst | .nop | .stfClr | .stfBit _ | .unsClr | .unsBit _ | .fcsInit | .fcsBit _ | .fcsByte _ => False

/-- The outcome `r` of command `i` issued in `s` is a completion, or the raise of one of its codes after its failure writes. -/
def CompletesOrFails (i : Instr) (s : State) (r : Result) : Prop :=
  (∃ t, r = complete t) ∨ ∃ t, ∃ E ∈ i.failureCodes, FailureWritesOf i E s t ∧ r = raise E t

/-- A command that ends in `emitObits` completes, or fails with CAPACITY and empty OBITS (R103, R304). -/
theorem completesOrFails_emitObits {i : Instr} {s : State} {r : Bits} (hi : .capacity ∈ i.failureCodes)
    (hw : FailureWritesOf i .capacity s (s.setObits [])) : CompletesOrFails i s (emitObits r s) := by
  obtain h | h := Nat.lt_or_ge s.cfg.obitsMax r.length
  · exact .inr ⟨_, _, hi, hw, emitObits_overflows h⟩
  · exact .inl ⟨_, emitObits_fits h⟩

/-- The codes of a failed decode are those R303 gives HDR.DES, and its record is the sentinel (R239). -/
theorem parse_ok_or_sentinel (maxInfo : Nat) (s : Bits) :
    (parse maxInfo s).reason = .ok ∨ ∃ f, ∃ E ∈ Instr.hdrDes.failureCodes, parse maxInfo s = Rx.sentinel E f := by
  obtain ⟨-, -, hfailed⟩ := parse_good maxInfo s
  refine or_iff_not_imp_left.2 fun hok => ?_
  have hv : (parse maxInfo s).valid = false := Bool.eq_false_iff.2 fun h => hok ((parse_valid_iff maxInfo s).1 h)
  obtain ⟨hr, hE, -⟩ := hfailed hv
  exact ⟨_, _, (List.mem_cons.1 hE).resolve_left hok, hr⟩

/-- Every command completes, or raises one of its codes after its failure writes (R301, R303, R304). -/
theorem exec_completesOrFails (i : Instr) (s : State) : CompletesOrFails i s (exec i s) := by
  cases i with
  | rst | nop | stfClr | stfBit | unsClr | unsBit | fcsInit | fcsBit | fcsByte => exact .inl ⟨_, rfl⟩
  | stfSeq | unsSeq | fcsApp => exact completesOrFails_emitObits (by decide) rfl
  | fcsVal =>
    obtain e | e := execFcsVal_cases s
    · exact .inr ⟨_, _, by decide, rfl, e⟩
    · rw [exec, e]
      exact completesOrFails_emitObits (by decide) rfl
  | csEnc c =>
    obtain e | ⟨r, e⟩ := execCsEnc_cases c s
    · exact .inr ⟨_, _, List.mem_singleton_self _, rfl, e⟩
    · exact .inl ⟨_, e⟩
  | csDec =>
    obtain e | ⟨r, e⟩ := execCsDec_cases s
    · exact .inr ⟨_, _, List.mem_singleton_self _, rfl, e⟩
    · exact .inl ⟨_, e⟩
  | hdrHdr =>
    obtain ⟨-, e⟩ | ⟨h, -, e⟩ := execHdrHdr_cases s
    · exact .inr ⟨_, _, by decide, rfl, e⟩
    · rw [exec, e]
      exact completesOrFails_emitObits (by decide) rfl
  | hdrFcsf =>
    obtain ⟨-, e⟩ | ⟨h, -, e⟩ := execHdrFcsf_cases s
    · exact .inr ⟨_, _, by decide, rfl, e⟩
    · exact .inl ⟨_, e⟩
  | hdrSer =>
    obtain ⟨-, e⟩ | ⟨h, -, ⟨-, e⟩ | ⟨-, e⟩⟩ := execHdrSer_cases s
    · exact .inr ⟨_, _, by decide, rfl, e⟩
    · exact .inr ⟨_, _, by decide, rfl, e⟩
    · exact .inl ⟨_, e⟩
  | hdrDes =>
    rw [exec, execHdrDes_eq]
    obtain e | ⟨f, E, hE, e⟩ := parse_ok_or_sentinel s.cfg.maxInfoBytes s.ibits
    · exact .inl ⟨_, by rw [e]; rfl⟩
    · exact .inr ⟨_, E, hE, ⟨f, rfl⟩, by rw [e]; rfl⟩

/-! ## The failures -/

/-- Settles O30: a completion writes OK, and a raise one of the command's codes. -/
theorem statusCodesOfEachCommand : Obligations.StatusCodesOfEachCommand := by
  unfold Obligations.StatusCodesOfEachCommand
  intro i s t ht
  obtain ⟨u, e⟩ | ⟨u, E, hE, -, e⟩ := exec_completesOrFails i s
  · obtain rfl := complete_eq_next.1 (e.symm.trans ht)
    exact .inl rfl
  · obtain rfl := raise_eq_next.1 (e.symm.trans ht)
    exact .inr hE

/-- A command that ends with a code other than OK has made its failure writes and set STATUS (R301, R304). -/
theorem failureWritesOf_exec {i : Instr} {s t : State} (ht : exec i s = .next t) (hE : t.status ≠ .ok) :
    ∃ u, FailureWritesOf i t.status s u ∧ t = u.setStatus t.status := by
  obtain ⟨u, e⟩ | ⟨u, E, -, hw, e⟩ := exec_completesOrFails i s
  · obtain rfl := complete_eq_next.1 (e.symm.trans ht)
    exact absurd rfl hE
  · obtain rfl := raise_eq_next.1 (e.symm.trans ht)
    exact ⟨u, hw, rfl⟩

/-- Settles O31: the rows of R304 are the cases of `FailureWritesOf`, and an illegal word only sets STATUS. -/
theorem failingCommandsMakeOnlyTheirFailureWrites : Obligations.FailingCommandsMakeOnlyTheirFailureWrites := by
  unfold Obligations.FailingCommandsMakeOnlyTheirFailureWrites
  refine ⟨fun i s t ht hE => ?_, fun s t cw hcw ht => ?_⟩
  · obtain ⟨u, hw, e⟩ := failureWritesOf_exec ht hE
    generalize t.status = E at hw e ⊢
    subst e
    cases i with
    | stfSeq | unsSeq | fcsApp | fcsVal | hdrHdr | hdrSer =>
      obtain rfl := hw
      exact ⟨rfl, fun _ => rfl, by simp, by simp, by simp⟩
    | csEnc | csDec =>
      obtain rfl := hw
      exact ⟨rfl, by simp, fun _ => rfl, by simp, by simp⟩
    | hdrFcsf =>
      obtain rfl := hw
      exact ⟨rfl, by simp, by simp, fun _ => rfl, by simp⟩
    | hdrDes =>
      obtain ⟨f, rfl⟩ := hw
      exact ⟨rfl, by simp, by simp, by simp, fun _ => ⟨f, rfl⟩⟩
    | rst | nop | stfClr | stfBit | unsClr | unsBit | fcsInit | fcsBit | fcsByte => cases hw
  · cases (issue_of_illegalWord hcw s).symm.trans ht
    rfl

/-! ## The idle core -/

/-- Settles O26: a step with no host action to come is the identity. -/
theorem idleCoreKeepsAllState : Obligations.IdleCoreKeepsAllState := by
  unfold Obligations.IdleCoreKeepsAllState
  exact fun _ h => step_of_host_nil h

end Sys2Proof.Machine

/-! PROOFS. Power-on reset (O34, O35): the reset state that a reset from any state gives, and its values (R330). -/

namespace Sys2Proof.Machine

open Sys2Proof

/-- RST's clearing with the host-written state cleared as well is the reset state; the model's own fields stay (R330, R331,
log 9). -/
theorem powerOnReset_eq_resetWith (s : State) :
    powerOnReset s = { State.resetWith s.cfg with host := s.host, reply := s.reply } := by
  rw [powerOnReset, State.clearCoreState_eq]
  rfl

/-- Settles O34: the host action is taken off the queue, and what is left is reset. -/
theorem assertedResetRestoresResetState : Obligations.AssertedResetRestoresResetState := by
  unfold Obligations.AssertedResetRestoresResetState
  intro s rest h
  calc step s
    _ = hostStep .powerOnReset (s.setHost rest) := step_of_host_cons h
    _ = .next (powerOnReset (s.setHost rest)) := rfl
    _ = .next { State.resetWith s.cfg with host := rest, reply := s.reply } :=
      congrArg Host.Outcome.next (powerOnReset_eq_resetWith (s.setHost rest))

/-- Settles O35: the fields are those of the definition, and the digest of the seed is 0 (R330). -/
theorem powerOnResetValues : Obligations.PowerOnResetValues := by
  unfold Obligations.PowerOnResetValues
  intro p
  have csOut : (State.resetWith p).csOut.toList = List.replicate 7 0 := Vector.toList_replicate
  have digest : regRead 0x05 (State.resetWith p) = 0x0000 := BitVec.not_allOnes
  exact ⟨rfl, rfl, rfl, rfl, rfl, rfl, rfl, rfl, rfl, csOut, rfl, rfl, digest⟩

end Sys2Proof.Machine
